-- ==== Sys2Proof/Word.lean ====
section
/-! DEFINITION. The widths the spec gives its quantities (00_scope.md R4, R5): every value of this
hardware is unsigned, bits are numbered from the most significant (N-1) down to 0. -/

namespace Sys2Proof

/-- An addressable memory cell, and the content of a general register: 8 bits (R4 BYTE_WIDTH, REG_WIDTH). -/
abbrev Byte := BitVec 8

/-- An instruction word, the pc, a call-stack entry, fault_info: 16 bits (R4 INSTR_WIDTH, PC_WIDTH,
STACK_ENTRY_WIDTH, FAULT_INFO_WIDTH). -/
abbrev Word := BitVec 16

/-- A 4-bit field of an instruction word (R5). -/
abbrev Nibble := BitVec 4

/-- The 12-bit immediate `addr` of an instruction word (R4 ADDR_WIDTH, R47). -/
abbrev Address := BitVec 12

/-- The index of a general register, 0..15 (R11, R54). -/
abbrev RegIndex := Fin 16

end Sys2Proof
end

