-- ==== Sys2Proof/Machine/Flags.lean ====
section
/-! DEFINITION. The arithmetic of the data path (42_arithmetic.md R85, R86): one unsigned 8-bit
addition, computed exactly and then narrowed, and its carry. -/

namespace Sys2Proof.Machine

/-- The unbounded sum, 0..510 (R85). -/
def addExact (a b : Byte) : Nat := a.toNat + b.toNat

/-- "the 8-bit wrapped result" (R85). -/
def addResult (a b : Byte) : Byte := BitVec.ofNat 8 (addExact a b % 256)

/-- The flag value of an addition: exactly 0 or 1 (R85). -/
def addCarry (a b : Byte) : Byte := if addExact a b > 255 then 1 else 0

end Sys2Proof.Machine
end

