-- ==== Sys2Proof/Config.lean ====
section
/-! DEFINITION. The implementation parameters of 00_scope.md R4. All but one are fixed numbers. The
widths among them (REG_WIDTH, PC_WIDTH and the like) are the types of Word.lean and of State. -/

namespace Sys2Proof.Config

/-- NUM_REGS: general registers V[0]..V[15]. -/
@[simp] abbrev numRegs : Nat := 16

/-- FLAG_REG: the index of the carry register (R12). -/
@[simp] abbrev flagReg : RegIndex := 15

/-- MEM_SIZE: bytes of memory, addresses 0..4095 (R30). -/
@[simp] abbrev memSize : Nat := 4096

/-- PC_INCREMENT: what every successful fetch adds to the pc (R62). -/
@[simp] abbrev pcIncrement : Word := 2

/-- FETCH_LIMIT: the greatest pc at which a fetch succeeds (R33). -/
@[simp] abbrev fetchLimit : Nat := 4094

/-- STACK_DEPTH, which is also SP_MAX: the entries of the call stack (R16, R17). -/
@[simp] abbrev stackDepth : Nat := 16

/-- DEFAULT_START_PC: the pc when the host supplies no start address (R23). -/
@[simp] abbrev defaultStartPc : Word := 0

/-- CYCLES_PER_STEP, the one OPEN parameter (R4, R133, decision D12): the clock cycles the step of an
instruction word takes. The spec gives no value and no rule reads it, so it has no body. -/
opaque cyclesPerStep : Word → Nat

end Sys2Proof.Config
end

