-- ==== Sys2Proof/Syntax.lean ====
section
/-! DEFINITION. The four instructions of the opcode table (30_encoding.md R50), with the operands
their formats carry (R49, R54). -/

namespace Sys2Proof

/-- One constructor per row of spec/opcode_table.json. Operands have exactly the range their fields
have, so every term is an instruction of the hardware. -/
inductive Instr where
  /-- HALT, word 0x0000 (R75). -/
  | halt
  /-- RET, word 0x00EE (R76). -/
  | ret
  /-- CALL addr, words 0x2nnn: a 12-bit absolute byte address (R77). -/
  | call (addr : Address)
  /-- ADD x,y, words 0x8xy4: `x` destination and first source, `y` second source (R85). -/
  | add (x y : RegIndex)
  deriving DecidableEq, Repr

end Sys2Proof
end

