-- ==== Sys2Proof/WellFormed.lean ====
section
/-! DEFINITION. The checks that the types leave over. An instruction needs none: `Address` and
`RegIndex` hold exactly the values its fields can hold (30_encoding.md R47, R54), so `Instr.wellFormed`
accepts every term. What can be ill-formed on this hardware is a request of the host: an image longer
than the memory (70_reset_and_hazards.md R123) and a stack load deeper than the stack (R126). -/

namespace Sys2Proof

/-- Every index and every target an instruction can name is in range (R11, R39, R54). -/
def Instr.wellFormed : Instr → Bool
  | .halt => true
  | .ret => true
  | .call addr => addr.toNat < Config.memSize
  | .add x y => x.val < Config.numRegs && y.val < Config.numRegs

/-- LoadImage takes "byte sequence up to 4096 bytes" (R123). -/
def imageFits (bytes : List Byte) : Bool :=
  bytes.length ≤ Config.memSize

/-- LoadStack takes 0 to 16 entries (R126). -/
def stackLoadFits (entries : List Word) : Bool :=
  entries.length ≤ Config.stackDepth

end Sys2Proof
end

