-- ==== Sys2Proof/Decode.lean ====
section
/-! DEFINITION. Decoding and encoding (30_encoding.md R45 to R56): the field split, the dispatch on
the tuple (c,x,y,d), the opcode table as masks, the bytes of an instruction, and the encoder. -/

namespace Sys2Proof

/-- The five values decode yields for every word (R46, R48). -/
structure Fields where
  c : Nibble
  x : Nibble
  y : Nibble
  d : Nibble
  addr : Address
  deriving DecidableEq, Repr

/-- Decode proper (R46, R47): total, a pure function of the word (R48). -/
def splitWord (w : Word) : Fields where
  c := w.extractLsb' 12 4
  x := w.extractLsb' 8 4
  y := w.extractLsb' 4 4
  d := w.extractLsb' 0 4
  addr := w.extractLsb' 0 12

/-- Why bytes are not read as an instruction. -/
inductive DecodeReject where
  /-- The word matches no row of the opcode table; dispatch raises `UnimplementedOpcode(word)` (R52). -/
  | unimplementedOpcode (w : Word)
  /-- Fewer than two bytes are left: no instruction is shorter (R45). -/
  | truncated
  deriving DecidableEq, Repr

/-- Dispatch on the tuple, in the order of the source's table (R50, R51, R60). -/
def selectRow (f : Fields) : Option Instr :=
  if f.c = 0x0 ∧ f.x = 0x0 ∧ f.y = 0x0 ∧ f.d = 0x0 then some .halt
  else if f.c = 0x0 ∧ f.x = 0x0 ∧ f.y = 0xE ∧ f.d = 0xE then some .ret
  else if f.c = 0x2 then some (.call f.addr)
  else if f.c = 0x8 ∧ f.d = 0x4 then some (.add f.x.toFin f.y.toFin)
  else none

/-- Decode and dispatch of one instruction word: total, rejecting by name (R48, R52, R64). -/
def decodeWord (w : Word) : Except DecodeReject Instr :=
  match selectRow (splitWord w) with
  | some i => .ok i
  | none => .error (.unimplementedOpcode w)

/-- Two bytes as one big-endian word, the byte at the lower address first (20_memory.md R32, R34). -/
def bigEndian (hi lo : Byte) : Word := BitVec.ofNat 16 (hi.toNat * 256 + lo.toNat)

/-- The byte at the lower address of a stored word. -/
def highByte (w : Word) : Byte := w.extractLsb' 8 8

/-- The byte at the higher address of a stored word. -/
def lowByte (w : Word) : Byte := w.extractLsb' 0 8

/-- Decoding any bytes: the instruction they begin with and the rest (R45). -/
def decodeBytes : List Byte → Except DecodeReject (Instr × List Byte)
  | hi :: lo :: rest =>
    match decodeWord (bigEndian hi lo) with
    | .ok i => .ok (i, rest)
    | .error r => .error r
  | [_] => .error .truncated
  | [] => .error .truncated

/-- The word of an instruction (R50, and the words of R55). -/
def encodeWord : Instr → Word
  | .halt => 0x0000
  | .ret => 0x00EE
  | .call addr => BitVec.ofNat 16 (0x2000 + addr.toNat)
  | .add x y => BitVec.ofNat 16 (0x8004 + x.val * 256 + y.val * 16)

/-- The two bytes of an instruction as they lie in memory (R45, 20_memory.md R34). -/
def encode (i : Instr) : List Byte :=
  [highByte (encodeWord i), lowByte (encodeWord i)]

/-- The mnemonic of an instruction's row (R50). -/
def Instr.mnemonic : Instr → String
  | .halt => "HALT"
  | .ret => "RET"
  | .call _ => "CALL"
  | .add _ _ => "ADD"

/-- A row of the opcode table: a word selects it when `(word AND mask) = pattern` (R50). -/
structure OpcodeRow where
  mnemonic : String
  mask : Word
  pattern : Word
  deriving DecidableEq, Repr

/-- The complete opcode table (R50). -/
def opcodeTable : List OpcodeRow :=
  [⟨"HALT", 0xFFFF, 0x0000⟩, ⟨"RET", 0xFFFF, 0x00EE⟩,
   ⟨"CALL", 0xF000, 0x2000⟩, ⟨"ADD", 0xF00F, 0x8004⟩]

/-- Whether a word selects a row (R50). -/
def OpcodeRow.selects (r : OpcodeRow) (w : Word) : Bool :=
  w &&& r.mask = r.pattern

/-- The rows a word selects; the patterns are disjoint, so there is at most one (R50). -/
def rowsOf (w : Word) : List OpcodeRow :=
  opcodeTable.filter (·.selects w)

/-- The host's question about a row of the opcode table: what the decoder reads from the instruction
whose table bits are `w`, every bit from `nbits` on being 0. One instruction is one 16-bit word, laid
out high byte first. -/
def decodeTableWord (nbits w : Nat) : Option Instr :=
  let word : Word := BitVec.ofNat 16 (w % 2 ^ nbits)
  match decodeBytes [highByte word, lowByte word] with
  | .ok (i, _) => some i
  | .error _ => none

end Sys2Proof
end

