-- ==== Sys2Proof/Machine/State.lean ====
section
/-! DEFINITION. The architectural state (10_state.md R10: "and nothing else") and its reset values
(R23), and the names under which a model step can stop. -/

namespace Sys2Proof.Machine

/-- The three states of the interpreter state machine (10_state.md R19, 40_execution_cycle.md R69). -/
inductive Status where
  | running
  | halted
  | faulted
  deriving DecidableEq, Repr

/-- The fault kinds, with `noFault` for "none has been taken since reset" (10_state.md R20). -/
inductive FaultKind where
  | noFault
  | outOfBounds
  | stackOverflow
  | stackUnderflow
  | unimplementedOpcode
  deriving DecidableEq, Repr

/-- Memory as the list of its bytes that are not zero, at strictly rising addresses. An address not
listed reads as 0, the reset contents (20_memory.md R44; log entry 1). -/
abbrev Memory := List Host.Cell

/-- The state of the Machine (10_state.md R10). `sp` is typed 0..16 as R18 asks. -/
structure State where
  /-- V[0]..V[15]; V[15] is also the carry flag (R11, R12). -/
  v : Vector Byte 16
  /-- The program counter (R14). -/
  pc : Word
  /-- The call-stack entries (R16). -/
  stack : Vector Word 16
  /-- The entries in use (R17, R18). -/
  sp : Fin 17
  /-- The run state (R19). -/
  status : Status
  /-- The kind of the fault taken (R20). -/
  faultKind : FaultKind
  /-- The operand of the fault taken (R21). -/
  faultInfo : Word
  /-- The 4096 bytes (20_memory.md R30). -/
  mem : Memory
  deriving DecidableEq, Repr

/-- Reset (10_state.md R23, 70_reset_and_hazards.md R120): all zero, status running. -/
def State.reset : State where
  v := Vector.replicate 16 0
  pc := Config.defaultStartPc
  stack := Vector.replicate 16 0
  sp := 0
  status := .running
  faultKind := .noFault
  faultInfo := 0
  mem := []

/-- How a model step can stop without a next state. The spec's own four faults are not here: taking
one is a next state with status faulted (60_exceptions.md R100). -/
inductive Fault where
  /-- A memory access names an address outside 0..4095, which does not exist (20_memory.md R30).
  Raised by `memRead2` and `memWrite` alone. Safe: no step and no host transaction gets there, since
  the fetch checks its bound first (R33) and an image is checked before it is loaded (R123). -/
  | noSuchAddress (a : Nat)
  deriving DecidableEq, Repr

/-- What the model gives no meaning to. -/
inductive Refusal where
  /-- An instruction without a meaning: no arm of exec answers it. Safe. -/
  | notModelled (mnemonic : String)
  /-- An image that runs past address 4095. Raised by `transact` for LoadImage with more than 4096
  bytes, which the spec refuses (R123, K9), and by `portLoadImage` (log entry 19). Safe. -/
  | imageTooLong (length : Nat)
  /-- LoadStack with more than 16 entries; raised by `transact`. Safe: the spec refuses it (R126, K8). -/
  | stackLoadTooLong (length : Nat)
  /-- A write transaction after the first Step or Run; raised by `transact`. Safe: the spec gives it
  no meaning and asks a model to refuse it (R121, K10). -/
  | writeAfterLaunch
  /-- A host-port address that 70_reset_and_hazards.md R134 does not list; raised by `portRead` and
  `portWrite`. Safe: the spec says nothing about it. -/
  | noSuchPortAddress (space : BitVec 2) (addr : Address)
  deriving DecidableEq, Repr

end Sys2Proof.Machine
end

