-- ==== Sys2Proof/Machine/Operands.lean ====
section
/-! DEFINITION. The operand forms (30_encoding.md R54): register direct, and the absolute code
address of CALL. -/

namespace Sys2Proof.Machine

/-- `V[i]`: an 8-bit value; register 15 reads like any other (10_state.md R11, R12). -/
def readReg (i : RegIndex) (s : State) : Byte := s.v[i]

/-- `V[i] <- b`: no register is hardwired, register 15 included (R11, R12). -/
def writeReg (i : RegIndex) (b : Byte) (s : State) : State :=
  { s with v := s.v.set i b }

/-- `zext_16(addr)`: the target of a CALL (R47, 41_control_flow.md R77). -/
def callTarget (addr : Address) : Word := addr.setWidth 16

end Sys2Proof.Machine
end

