-- ==== Sys2Proof/Machine/Ops.lean ====
section
/-! DEFINITION. The named operations of the machine: memory, pc, call stack, status, taking a fault
(there is no return from one, 60_exceptions.md R103), and the parts of a step around execution. -/

namespace Sys2Proof.Machine

/-! ### Memory as data -/

/-- The byte a memory holds at an address; what is not listed reads as 0 (20_memory.md R44). -/
def Memory.readByte : Memory → Nat → Byte
  | [], _ => 0
  | (k, b) :: rest, a => if k = a then b else Memory.readByte rest a

/-- What is listed when a byte is put in front: a zero byte is not listed. -/
def Memory.cons (a : Nat) (b : Byte) (m : Memory) : Memory :=
  if b = 0 then m else (a, b) :: m

/-- Replace one byte, keeping addresses rising and zeros unlisted. -/
def Memory.writeByte : Memory → Nat → Byte → Memory
  | [], a, b => Memory.cons a b []
  | (k, c) :: rest, a, b =>
    if a < k then Memory.cons a b ((k, c) :: rest)
    else if a = k then Memory.cons a b rest
    else (k, c) :: Memory.writeByte rest a b

/-- The memory that holds a byte sequence from `start` upwards and zeros everywhere else. -/
def Memory.ofBytes (start : Nat) : List Byte → Memory
  | [] => []
  | b :: bs => Memory.cons start b (Memory.ofBytes (start + 1) bs)

/-- Every listed cell lies above `low` and below 4096 and is not zero, addresses strictly rising. -/
def Memory.wfFrom (low : Nat) : Memory → Bool
  | [] => true
  | (k, b) :: rest => low ≤ k && k < Config.memSize && b ≠ 0 && Memory.wfFrom (k + 1) rest

/-- The canonical form: equal memories are equal data. -/
def Memory.wf (m : Memory) : Bool := Memory.wfFrom 0 m

/-! ### Memory accesses of the machine -/

/-- `MemRead(addr, 2)` (20_memory.md R32): two bytes, big-endian; no address at or above 4096 exists. -/
def memRead2 (a : Nat) (s : State) : Host.Outcome Word Fault Refusal :=
  if a + 1 < Config.memSize then
    .next (bigEndian (Memory.readByte s.mem a) (Memory.readByte s.mem (a + 1)))
  else .fault (.noSuchAddress (a + 1))

/-- `MemWrite(addr, 1, b)` (00_scope.md R6): no instruction performs it, only the host's load does
(20_memory.md R37). -/
def memWrite (a : Nat) (b : Byte) (s : State) : Host.Outcome State Fault Refusal :=
  if a < Config.memSize then .next { s with mem := Memory.writeByte s.mem a b }
  else .fault (.noSuchAddress a)

/-! ### Registers other than V -/

/-- `pc <- target`. -/
def setPc (target : Word) (s : State) : State := { s with pc := target }

/-- `status <- st`. -/
def setStatus (st : Status) (s : State) : State := { s with status := st }

/-- `stack[k] <- w`: only CALL and the host do this (10_state.md R16). -/
def writeEntry (k : Fin 16) (w : Word) (s : State) : State :=
  { s with stack := s.stack.set k w }

/-- `sp <- n`. -/
def setSp (n : Fin 17) (s : State) : State := { s with sp := n }

/-- `zext_16(sp)`, the stack depth the stack faults record (10_state.md R21). -/
def stackDepthWord (s : State) : Word := BitVec.ofNat 16 s.sp.val

/-- The advance that follows every successful fetch, before decode and execution
(40_execution_cycle.md R62). -/
def advance (s : State) : State := setPc (s.pc + Config.pcIncrement) s

/-! ### The call stack -/

/-- `stack[sp] <- w; sp <- sp + 1`, or nothing when 16 entries are in use (41_control_flow.md R77). -/
def pushEntry (w : Word) (s : State) : Option State :=
  if h : s.sp.val < 16 then
    some (setSp ⟨s.sp.val + 1, by omega⟩ (writeEntry ⟨s.sp.val, h⟩ w s))
  else none

/-- `sp <- sp - 1`, with the entry then at `sp`, or nothing when no entry is in use. The entry is not
cleared (41_control_flow.md R76, 10_state.md R16). -/
def popEntry (s : State) : Option (Word × State) :=
  if h : 0 < s.sp.val then
    some (s.stack[s.sp.val - 1], setSp ⟨s.sp.val - 1, by omega⟩ s)
  else none

/-! ### Taking a fault -/

/-- `raise K(info)`: exactly three writes, and the step ends (00_scope.md R6, 60_exceptions.md R100). -/
def raise (k : FaultKind) (info : Word) (s : State) : State :=
  { s with status := .faulted, faultKind := k, faultInfo := info }

/-! ### The step around execution -/

/-- Whether the bytes of the next instruction exist (20_memory.md R33): the full 16-bit pc is
compared, nothing wraps. -/
def fetchable (s : State) : Bool := s.pc.toNat ≤ Config.fetchLimit

/-- Dispatch of a fetched word on the advanced state (40_execution_cycle.md R60, R64): the row's
effect, or `UnimplementedOpcode(word)` (60_exceptions.md R99). -/
def dispatchWord (execute : Instr → State → Host.Outcome State Fault Refusal) (w : Word) (s : State) :
    Host.Outcome State Fault Refusal :=
  match decodeWord w with
  | .ok i => execute i s
  | .error _ => .next (raise .unimplementedOpcode w s)

/-- One iteration of the loop while running (40_execution_cycle.md R60): bounds check, fetch,
advance, decode, dispatch. -/
def runningCycle (execute : Instr → State → Host.Outcome State Fault Refusal) (s : State) :
    Host.Outcome State Fault Refusal :=
  if fetchable s then
    match memRead2 s.pc.toNat s with
    | .next w => dispatchWord execute w (advance s)
    | .fault r => .fault r
    | .refused r => .refused r
  else .next (raise .outOfBounds s.pc s)

/-- A commanded step (70_reset_and_hazards.md R127): one iteration while running; in halted and
faulted no fetch takes place and nothing changes (40_execution_cycle.md R68). -/
def cycle (execute : Instr → State → Host.Outcome State Fault Refusal) (s : State) :
    Host.Outcome State Fault Refusal :=
  match s.status with
  | .running => runningCycle execute s
  | .halted => .next s
  | .faulted => .next s

/-! ### The port encodings of status and fault_kind -/

/-- The 2-bit code of the status (10_state.md R19). -/
def Status.code : Status → BitVec 2
  | .running => 0
  | .halted => 1
  | .faulted => 2

/-- The 3-bit code of the fault kind (10_state.md R20). -/
def FaultKind.code : FaultKind → BitVec 3
  | .noFault => 0
  | .outOfBounds => 1
  | .stackOverflow => 2
  | .stackUnderflow => 3
  | .unimplementedOpcode => 4

/-! ### Placing an instruction for the next fetch -/

/-- A state in which a step runs; unchanged where it already is one (log entry 2). -/
def makeRunning (s : State) : State :=
  if s.status = .running then s
  else { s with status := .running, faultKind := .noFault, faultInfo := 0 }

/-- A state whose next step fetches: running, with a pc a fetch accepts; unchanged where it already is
one (log entry 2). -/
def readyToFetch (s : State) : State :=
  if fetchable (makeRunning s) then makeRunning s else setPc Config.defaultStartPc (makeRunning s)

/-- The word laid out big-endian at the pc (20_memory.md R34). -/
def placeAtPc (w : Word) (s : State) : State :=
  { s with mem := Memory.writeByte (Memory.writeByte s.mem s.pc.toNat (highByte w))
                    (s.pc.toNat + 1) (lowByte w) }

end Sys2Proof.Machine
end

