-- ==== Sys2Proof/Machine/Arithmetic.lean ====
section
/-! DEFINITION. The arithmetic instruction (42_arithmetic.md). -/

namespace Sys2Proof.Machine

/-- ADD x,y (R85): both operands are read before any write; the wrapped sum goes to V[x], then the
carry goes to V[15], last and unconditionally, so that with x = 15 the carry stays (R87). -/
def execAdd (x y : RegIndex) (s : State) : Host.Outcome State Fault Refusal :=
  let a := readReg x s
  let b := readReg y s
  .next (writeReg Config.flagReg (addCarry a b) (writeReg x (addResult a b) s))

end Sys2Proof.Machine
end

