-- ==== Sys2Proof/Machine/ControlFlow.lean ====
section
/-! DEFINITION. The control-flow instructions (41_control_flow.md). The state each acts on has its pc
already advanced past the instruction (40_execution_cycle.md R62). -/

namespace Sys2Proof.Machine

/-- HALT (R75): `status <- halted`, and nothing else. -/
def execHalt (s : State) : Host.Outcome State Fault Refusal :=
  .next (setStatus .halted s)

/-- RET (R76): pop an entry into the pc, whole; with an empty stack raise `StackUnderflow(sp)`. -/
def execRet (s : State) : Host.Outcome State Fault Refusal :=
  match popEntry s with
  | some (target, t) => .next (setPc target t)
  | none => .next (raise .stackUnderflow (stackDepthWord s) s)

/-- CALL addr (R77): push the advanced pc and go to the address; with a full stack raise
`StackOverflow(sp)`. -/
def execCall (addr : Address) (s : State) : Host.Outcome State Fault Refusal :=
  match pushEntry s.pc s with
  | some t => .next (setPc (callTarget addr) t)
  | none => .next (raise .stackOverflow (stackDepthWord s) s)

end Sys2Proof.Machine
end

