-- ==== Sys2Proof/Machine/Step.lean ====
section
/-! DEFINITION. The step (40_execution_cycle.md R60, R68), and where it fetches. -/

namespace Sys2Proof.Machine

/-- One commanded step: the cycle of Ops.lean around the meanings of Dispatch.lean. -/
def step (s : State) : Host.Outcome State Fault Refusal :=
  Sys2Proof.Machine.cycle Sys2Proof.Machine.exec s

/-- `s` with the instruction whose table bits are `w` (0 from bit `nbits` on) where the next step
fetches (log entry 2). -/
def State.withFetchWord (s : State) (nbits w : Nat) : State :=
  Sys2Proof.Machine.placeAtPc (BitVec.ofNat 16 (w % 2 ^ nbits)) (Sys2Proof.Machine.readyToFetch s)

end Sys2Proof.Machine
end

