-- ==== Sys2Proof/Machine/Run.lean ====
section
/-! DEFINITION. Runs: repeated steps (40_execution_cycle.md R66), and what a step or a run reports to
the host (R67, 60_exceptions.md R112). -/

namespace Sys2Proof.Machine

/-- What one Step reports (40_execution_cycle.md R67). -/
inductive StepOutcome where
  /-- `Continue`. -/
  | continues
  /-- `Halted`. -/
  | halted
  /-- `Fault(kind, info)`. -/
  | fault (kind : FaultKind) (info : Word)
  deriving DecidableEq, Repr

/-- What a run that ends in halted gives the host (10_state.md R25). -/
structure FinalState where
  v : Vector Byte 16
  pc : Word
  sp : Fin 17
  deriving DecidableEq, Repr

/-- What one Run reports (40_execution_cycle.md R66). -/
inductive RunResult where
  /-- `FinalState(V[0..15], pc, sp)`. -/
  | final (f : FinalState)
  /-- `Fault(fault_kind, fault_info)`. -/
  | fault (kind : FaultKind) (info : Word)
  deriving DecidableEq, Repr

/-- The outcome of a step is a function of the state after it (40_execution_cycle.md R67). -/
def stepOutcome (s : State) : StepOutcome :=
  match s.status with
  | .running => .continues
  | .halted => .halted
  | .faulted => .fault s.faultKind s.faultInfo

/-- The result of a run, from the state it ends in (40_execution_cycle.md R66). -/
def runResult (s : State) : RunResult :=
  if s.status = .halted then .final ⟨s.v, s.pc, s.sp⟩ else .fault s.faultKind s.faultInfo

/-- The state a step leads to; where a step stops without one, the state itself. -/
def nextState (s : State) : State :=
  match step s with
  | .next t => t
  | .fault _ => s
  | .refused _ => s

/-- The state after `n` commanded steps. -/
def afterSteps : Nat → State → State
  | 0, s => s
  | n + 1, s => afterSteps n (nextState s)

/-- `while status = running do Step()`, cut off after `fuel` steps (40_execution_cycle.md R66). -/
def runFor : Nat → State → Host.Outcome State Fault Refusal
  | 0, s => .next s
  | fuel + 1, s =>
    match s.status with
    | .running =>
      match step s with
      | .next t => runFor fuel t
      | .fault r => .fault r
      | .refused r => .refused r
    | .halted => .next s
    | .faulted => .next s

/-- More steps than any run takes: by the argument of 40_execution_cycle.md R71 a stay at one stack
depth takes at most 2048 steps at that depth, and there are 17 depths (log entry 16). -/
def runFuel : Nat := 2 ^ 200

/-- `Run` (40_execution_cycle.md R66, 70_reset_and_hazards.md R128). -/
def run (s : State) : Host.Outcome State Fault Refusal := runFor runFuel s

end Sys2Proof.Machine
end

