-- ==== Sys2Proof/Machine/HostPort.lean ====
section
/-! DEFINITION. The host's side (70_reset_and_hazards.md R120 to R136): the transactions, the phases
of the protocol, and the addressed host port of R134. The phase is no register of the machine
(10_state.md R10, R22), so it stands beside the State (log entry 10). -/

namespace Sys2Proof.Machine

/-- The phases after a Reset (R121). -/
inductive Phase where
  /-- Reset has happened and no Step or Run since: the host may write. -/
  | load
  /-- From the first Step or Run on: launch has happened. -/
  | run
  deriving DecidableEq, Repr

/-- The machine and where the host is in its protocol (R121). -/
structure Session where
  machine : State
  phase : Phase
  deriving DecidableEq, Repr

/-- What the host may read at a step boundary (R129). -/
inductive Readable where
  | v (i : RegIndex)
  | pc
  | sp
  | status
  | faultKind
  | faultInfo
  | stack (k : Fin 16)
  | mem (a : Address)
  deriving DecidableEq, Repr

/-- The host transactions (R122). -/
inductive Transaction where
  /-- Reset (R120). -/
  | reset
  /-- LoadImage(bytes) (R123). -/
  | loadImage (bytes : List Byte)
  /-- SeedRegister(i, v) (R124). -/
  | seedRegister (i : RegIndex) (b : Byte)
  /-- SetPC(a) (R125). -/
  | setPc (a : Word)
  /-- LoadStack(n, entries), n the length of the list (R126). -/
  | loadStack (entries : List Word)
  /-- Step (R127). -/
  | step
  /-- Run (R128). -/
  | run
  /-- One of the reads (R129). -/
  | read (r : Readable)
  deriving DecidableEq, Repr

/-- What a transaction gives back to the host (R135). -/
inductive Reply where
  | nothing
  | stepped (o : StepOutcome)
  | finished (r : RunResult)
  /-- The value read, zero-extended to 16 bits as on the port of R134. -/
  | value (w : Word)
  deriving DecidableEq, Repr

/-- Power-on: the machine reset, the load phase open (R120, R121). -/
def Session.start : Session := ⟨State.reset, .load⟩

/-- The value of a read; codes for status and fault_kind (R129, R134). -/
def readValue (r : Readable) (s : State) : Word :=
  match r with
  | .v i => (readReg i s).setWidth 16
  | .pc => s.pc
  | .sp => stackDepthWord s
  | .status => s.status.code.setWidth 16
  | .faultKind => s.faultKind.code.setWidth 16
  | .faultInfo => s.faultInfo
  | .stack k => s.stack[k]
  | .mem a => (Memory.readByte s.mem a.toNat).setWidth 16

/-- `mem[i] <- bytes[i]` below the length, `mem[i] = 0` from there on (R123). -/
def loadMemory (bytes : List Byte) (s : State) : State :=
  { s with mem := Memory.ofBytes 0 bytes }

/-- `stack[k] <- entries[k]` from entry `k` on; entries beyond the list keep their value (R126). -/
def loadEntries (k : Nat) (entries : List Word) (s : State) : State :=
  match entries with
  | [] => s
  | w :: ws => if h : k < 16 then loadEntries (k + 1) ws (writeEntry ⟨k, h⟩ w s) else s

/-- A write transaction: it has its effect in the load phase and no meaning after launch (R121). -/
def loadOnly (x : Session) (t : State) : Host.Outcome (Session × Reply) Fault Refusal :=
  match x.phase with
  | .load => .next (⟨t, .load⟩, .nothing)
  | .run => .refused .writeAfterLaunch

/-- The transactions (R120 to R129). Step and Run end the load phase (R121). -/
def transact (t : Transaction) (x : Session) : Host.Outcome (Session × Reply) Fault Refusal :=
  match t with
  | .reset => .next (Session.start, .nothing)
  | .loadImage bytes =>
    if imageFits bytes then loadOnly x (loadMemory bytes x.machine)
    else .refused (.imageTooLong bytes.length)
  | .seedRegister i b => loadOnly x (writeReg i b x.machine)
  | .setPc a => loadOnly x (setPc a x.machine)
  | .loadStack entries =>
    if stackLoadFits entries then
      loadOnly x (setSp (Fin.ofNat 17 entries.length) (loadEntries 0 entries x.machine))
    else .refused (.stackLoadTooLong entries.length)
  | .step =>
    match step x.machine with
    | .next u => .next (⟨u, .run⟩, .stepped (stepOutcome u))
    | .fault r => .fault r
    | .refused r => .refused r
  | .run =>
    match run x.machine with
    | .next u => .next (⟨u, .run⟩, .finished (runResult u))
    | .fault r => .fault r
    | .refused r => .refused r
  | .read r => .next (x, .value (readValue r x.machine))

/-- A sequence of transactions, up to the first that is refused. -/
def transactAll : List Transaction → Session → Host.Outcome Session Fault Refusal
  | [], x => .next x
  | t :: ts, x =>
    match transact t x with
    | .next (y, _) => transactAll ts y
    | .fault r => .fault r
    | .refused r => .refused r

/-- The source's `run(start_pc)`: SetPC, then Run (R122). -/
def runFrom (start : Word) (x : Session) : Host.Outcome Session Fault Refusal :=
  transactAll [.setPc start, .run] x

/-! ### The addressed host port (R134) -/

/-- What (h_space, h_addr) names, where R134 lists it. -/
def portTarget (space : BitVec 2) (addr : Address) : Option Readable :=
  if space = 0 then some (.mem addr)
  else if space = 1 then
    if h : addr.toNat < 16 then some (.v ⟨addr.toNat, h⟩) else none
  else if space = 2 then
    if h : addr.toNat < 16 then some (.stack ⟨addr.toNat, h⟩) else none
  else if addr = 0 then some .pc
  else if addr = 1 then some .sp
  else if addr = 2 then some .status
  else if addr = 3 then some .faultKind
  else if addr = 4 then some .faultInfo
  else none

/-- h_rdata for (h_space, h_addr): zero-extended (R134). -/
def portRead (space : BitVec 2) (addr : Address) (s : State) : Host.Outcome Word Fault Refusal :=
  match portTarget space addr with
  | some r => .next (readValue r s)
  | none => .refused (.noSuchPortAddress space addr)

/-- What a write of h_wdata does to one target: the low 8 bits go to mem and V, the low 5 to sp where
they are a legal value; status, fault_kind and fault_info are read-only (R134). -/
def writeTarget (r : Readable) (data : Word) (s : State) : Host.Outcome State Fault Refusal :=
  match r with
  | .mem a => memWrite a.toNat (lowByte data) s
  | .v i => .next (writeReg i (lowByte data) s)
  | .stack k => .next (writeEntry k data s)
  | .pc => .next (setPc data s)
  | .sp =>
    if h : (data.extractLsb' 0 5).toNat < 17 then .next (setSp ⟨(data.extractLsb' 0 5).toNat, h⟩ s)
    else .next s
  | .status => .next s
  | .faultKind => .next s
  | .faultInfo => .next s

/-- A write strobe h_we at a step boundary: "honoured only in the load phase" (R134). -/
def portWrite (space : BitVec 2) (addr : Address) (data : Word) (x : Session) :
    Host.Outcome Session Fault Refusal :=
  match portTarget space addr with
  | none => .refused (.noSuchPortAddress space addr)
  | some r =>
    match x.phase with
    | .run => .next x
    | .load =>
      match writeTarget r data x.machine with
      | .next s => .next ⟨s, .load⟩
      | .fault f => .fault f
      | .refused f => .refused f

/-- A sequence of byte writes to space 0 from an address upwards, the port's form of LoadImage (R134).
DESIGN CHOICE (log entry 19), two points on which R134 is silent: a sequence that runs past address 4095
is refused as a whole, as R123 refuses an over-long image, and never wraps to address 0; and only the
bytes given are written, so what memory held behind a short image stays. -/
def portLoadImage (start : Nat) (bytes : List Byte) (x : Session) : Host.Outcome Session Fault Refusal :=
  match bytes with
  | [] => .next x
  | b :: bs =>
    if start < Config.memSize then
      match portWrite 0 (BitVec.ofNat 12 start) (b.setWidth 16) x with
      | .next y => portLoadImage (start + 1) bs y
      | .fault r => .fault r
      | .refused r => .refused r
    else .refused (.imageTooLong (start + (b :: bs).length))

end Sys2Proof.Machine
end

