-- ==== Sys2Proof/Safety.lean ====
section
/-! DEFINITION. What counts as a safe state and a safe run, in the terms the claims use. -/

namespace Sys2Proof.Machine

/-- "no fault recorded", the part a claim of a correct run takes with it (60_exceptions.md R104). -/
abbrev State.noFaultRecorded (s : State) : Prop := s.faultKind = .noFault ∧ s.faultInfo = 0

/-- The word at an address, however the machine comes to look there (20_memory.md R32). -/
def wordAt (s : State) (a : Nat) : Word :=
  bigEndian (Memory.readByte s.mem a) (Memory.readByte s.mem (a + 1))

/-- The instruction word the next fetch returns, where the fetch succeeds (20_memory.md R33). -/
def nextWord (s : State) : Word := wordAt s s.pc.toNat

/-- Whether the word at the pc is a CALL (30_encoding.md R50). -/
def atCall (s : State) : Bool := (nextWord s).toNat / 4096 = 2

/-- Whether the word at the pc is an ADD (30_encoding.md R50). -/
def atAdd (s : State) : Bool := (nextWord s).toNat / 4096 = 8 && (nextWord s).toNat % 16 = 4

/-- How many of the first `n` steps from `s` meet a CALL at the pc. -/
def callsIn (n : Nat) (s : State) : Nat :=
  (List.range n).countP (fun k => atCall (afterSteps k s))

/-- The word two bytes before the pc: after a stop at dispatch, the word that stopped the machine
(60_exceptions.md R101). -/
def lastWord (s : State) : Word := wordAt s (s.pc.toNat - 2)

/-- A stop at dispatch leaves the pc at the stopping word's address plus 2 (R75, R101). -/
def pastAFetch (s : State) : Bool := 2 ≤ s.pc.toNat && s.pc.toNat ≤ 4096

/-- The status and fault registers agree with each other and with the state a stop leaves
(10_state.md R20, R21; 60_exceptions.md R96 to R101; 41_control_flow.md R75). -/
def stopRecordOk (s : State) : Bool :=
  match s.status, s.faultKind with
  | .running, .noFault => s.faultInfo = 0
  | .halted, .noFault => s.faultInfo = 0 && pastAFetch s && decodeWord (lastWord s) = .ok .halt
  | .faulted, .outOfBounds => s.faultInfo = s.pc && 4095 ≤ s.pc.toNat
  | .faulted, .stackOverflow =>
    s.faultInfo = 16 && s.sp.val = 16 && pastAFetch s && (lastWord s).extractLsb' 12 4 = 2
  | .faulted, .stackUnderflow =>
    s.faultInfo = 0 && s.sp.val = 0 && pastAFetch s && decodeWord (lastWord s) = .ok .ret
  | .faulted, .unimplementedOpcode =>
    pastAFetch s && lastWord s = s.faultInfo && (rowsOf s.faultInfo).isEmpty
  | _, _ => false

/-- The invariant of the machine: memory in its canonical form, and a stop that names its cause. -/
structure State.Inv (s : State) : Prop where
  memory : Memory.wf s.mem = true
  stop : stopRecordOk s = true

/-- The pc and every stack entry are at most 4096: what a launch that loads no stack and starts at
most there keeps (92_eei_decisions.md D1). -/
structure State.PcBounded (s : State) : Prop where
  pc : s.pc.toNat ≤ 4096
  entries : ∀ k : Fin 16, s.stack[k].toNat ≤ 4096

/-- What every launch that follows the protocol has (70_reset_and_hazards.md R136 (a), (b)). -/
structure Session.Launchable (x : Session) : Prop where
  phase : x.phase = .load
  running : x.machine.status = .running
  noFault : x.machine.noFaultRecorded
  memory : Memory.wf x.machine.mem = true

/-- The transactions that write (70_reset_and_hazards.md R122). -/
def Transaction.writes : Transaction → Bool
  | .loadImage _ => true
  | .seedRegister _ _ => true
  | .setPc _ => true
  | .loadStack _ => true
  | .reset => false
  | .step => false
  | .run => false
  | .read _ => false

/-- Two states that no step can tell apart at a given fetch: all but memory equal, and the two bytes
under the pc equal (20_memory.md R31). -/
structure SameFetch (s t : State) : Prop where
  registers : t = { s with mem := t.mem }
  high : Memory.readByte s.mem s.pc.toNat = Memory.readByte t.mem s.pc.toNat
  low : Memory.readByte s.mem (s.pc.toNat + 1) = Memory.readByte t.mem (s.pc.toNat + 1)

end Sys2Proof.Machine
end

