-- ==== Sys2Proof/Certificates/Slice0/Obligations.lean ====
section
/-! DEFINITION. The statements put to the provers. Each docstring names the sentence of the spec it
formalises; numbers of decisions (D<n>) are those of 92_eei_decisions.md, which the model follows. -/

open Sys2Proof Sys2Proof.Machine

/-! ### Encoding -/

/-- 30_encoding.md R46: the four nibbles and the 12-bit immediate, by position. -/
def Obligations.FieldsTileTheWord : Prop :=
  ∀ w : Word,
    (splitWord w).c.toNat = w.toNat / 4096 ∧ (splitWord w).x.toNat = w.toNat / 256 % 16 ∧
    (splitWord w).y.toNat = w.toNat / 16 % 16 ∧ (splitWord w).d.toNat = w.toNat % 16 ∧
    (splitWord w).addr.toNat = w.toNat % 4096 ∧
    (splitWord w).addr.toNat =
      (splitWord w).x.toNat * 256 + (splitWord w).y.toNat * 16 + (splitWord w).d.toNat

/-- 30_encoding.md R46, its sentence marked derived: the fields in terms of the two bytes in memory. -/
def Obligations.FieldsOfTheTwoBytes : Prop :=
  ∀ hi lo : Byte,
    (splitWord (bigEndian hi lo)).c.toNat = hi.toNat / 16 ∧
    (splitWord (bigEndian hi lo)).x.toNat = hi.toNat % 16 ∧
    (splitWord (bigEndian hi lo)).y.toNat = lo.toNat / 16 ∧
    (splitWord (bigEndian hi lo)).d.toNat = lo.toNat % 16

/-- 30_encoding.md R51: the content of each class `c`. -/
def Obligations.ClassDispatch : Prop :=
  ∀ w : Word,
    (w.toNat / 4096 = 0 →
      decodeWord w = if w = 0x0000 then .ok .halt else if w = 0x00EE then .ok .ret
        else .error (.unimplementedOpcode w)) ∧
    (w.toNat / 4096 = 2 → decodeWord w = .ok (.call (BitVec.ofNat 12 (w.toNat % 4096)))) ∧
    (w.toNat / 4096 = 8 →
      decodeWord w = if w.toNat % 16 = 4
        then .ok (.add (Fin.ofNat 16 (w.toNat / 256 % 16)) (Fin.ofNat 16 (w.toNat / 16 % 16)))
        else .error (.unimplementedOpcode w)) ∧
    (w.toNat / 4096 ≠ 0 → w.toNat / 4096 ≠ 2 → w.toNat / 4096 ≠ 8 →
      decodeWord w = .error (.unimplementedOpcode w))

/-- 30_encoding.md R50: `(word AND mask) = match` and the dispatch on the tuple select the same row,
and a word selects at most one row (the spec marks the disjointness as derived). -/
def Obligations.DispatchAgreesWithMasks : Prop :=
  ∀ w : Word,
    (∀ i, decodeWord w = .ok i → ∃ r, rowsOf w = [r] ∧ r.mnemonic = i.mnemonic) ∧
    (∀ e, decodeWord w = .error e → rowsOf w = [] ∧ e = .unimplementedOpcode w)

/-- 30_encoding.md R50, column "words matched": 1 + 1 + 4096 + 256 of the 65536 words are
instructions. -/
def Obligations.InstructionWordCount : Prop :=
  (List.range 65536).countP (fun n => (decodeTableWord 16 n).isSome) = 4354

/-- 30_encoding.md R56: encoding and decoding are inverse on the instruction words, in memory too,
with the worked encodings of that rule. -/
def Obligations.DecodeAndEncodeAgree : Prop :=
  (∀ (i : Instr) (rest : List Byte), i.wellFormed = true →
    decodeWord (encodeWord i) = .ok i ∧ decodeBytes (encode i ++ rest) = .ok (i, rest)) ∧
  (∀ (w : Word) (i : Instr), decodeWord w = .ok i → encodeWord i = w) ∧
  encode (.call 0x100) = [0x21, 0x00] ∧ encode (.add 0 1) = [0x80, 0x14] ∧
  encode (.add 0 2) = [0x80, 0x24] ∧ encode (.add 0 3) = [0x80, 0x34] ∧
  encode .ret = [0x00, 0xEE] ∧ encode .halt = [0x00, 0x00]

/-- Words of 95_test_vectors.md 2.2 and 2.3 (E1 to E8, X3 to X11), read as instructions or rejected. -/
def Obligations.WorkedWordsDecode : Prop :=
  decodeTableWord 16 0x0000 = some .halt ∧ decodeTableWord 16 0x00EE = some .ret ∧
  decodeTableWord 16 0x2100 = some (.call 0x100) ∧ decodeTableWord 16 0x8AB4 = some (.add 10 11) ∧
  decodeTableWord 16 0x01EE = none ∧ decodeTableWord 16 0x8015 = none ∧ decodeTableWord 16 0x1234 = none

/-! ### The step -/

/-- When the bytes at the pc decode to a well-formed instruction, the step is that instruction's
meaning on the state with the pc advanced by 2 (40_execution_cycle.md R60, R62). -/
def Obligations.StepRunsTheDecodedInstruction : Prop :=
  ∀ (s : State) (i : Instr), s.status = .running → s.pc.toNat ≤ 4094 → i.wellFormed = true →
    decodeBytes [Memory.readByte s.mem s.pc.toNat, Memory.readByte s.mem (s.pc.toNat + 1)]
      = .ok (i, []) →
    step s = exec i { s with pc := s.pc + 2 }

/-- 40_execution_cycle.md R60 and R61, with the word and its fields written out as numbers. -/
def Obligations.StepFollowsTheCycle : Prop :=
  ∀ s : State, s.status = .running →
    (4095 ≤ s.pc.toNat →
      step s = .next { s with status := .faulted, faultKind := .outOfBounds, faultInfo := s.pc }) ∧
    (s.pc.toNat ≤ 4094 → ∀ word : Nat,
      word = (Memory.readByte s.mem s.pc.toNat).toNat * 256
        + (Memory.readByte s.mem (s.pc.toNat + 1)).toNat →
      step s =
        if word / 4096 = 0 ∧ word / 256 % 16 = 0 ∧ word / 16 % 16 = 0 ∧ word % 16 = 0 then
          exec .halt { s with pc := s.pc + 2 }
        else if word / 4096 = 0 ∧ word / 256 % 16 = 0 ∧ word / 16 % 16 = 0xE ∧ word % 16 = 0xE then
          exec .ret { s with pc := s.pc + 2 }
        else if word / 4096 = 0x2 then
          exec (.call (BitVec.ofNat 12 (word % 4096))) { s with pc := s.pc + 2 }
        else if word / 4096 = 0x8 ∧ word % 16 = 0x4 then
          exec (.add (Fin.ofNat 16 (word / 256 % 16)) (Fin.ofNat 16 (word / 16 % 16)))
            { s with pc := s.pc + 2 }
        else .next { s with pc := s.pc + 2, status := .faulted, faultKind := .unimplementedOpcode,
                            faultInfo := BitVec.ofNat 16 word })

/-- 00_scope.md R9: the step is total; on this hardware no step stops without a next state. -/
def Obligations.EveryStepAnswers : Prop :=
  ∀ s : State, ∃ t, step s = .next t

/-- 40_execution_cycle.md R68 and 60_exceptions.md R104, by decision D8: once halted or faulted, no
number of steps and no run changes anything. -/
def Obligations.StoppedMachineStays : Prop :=
  ∀ s : State, s.status ≠ .running →
    step s = .next s ∧ (∀ n, afterSteps n s = s) ∧ run s = .next s

/-- 20_memory.md R32: the 2-byte read, big-endian, wherever both addresses exist. -/
def Obligations.FetchedWordIsBigEndian : Prop :=
  ∀ (s : State) (a : Nat), a + 1 ≤ 4095 →
    memRead2 a s = .next (BitVec.ofNat 16
      ((Memory.readByte s.mem a).toNat * 256 + (Memory.readByte s.mem (a + 1)).toNat))

/-! ### The instructions -/

/-- 41_control_flow.md R75: one word, `status <- halted` and nothing else, at every stack depth, and
at 4094 too. -/
def Obligations.HaltStopsTheMachine : Prop :=
  (∀ w : Word, decodeWord w = .ok .halt ↔ w = 0x0000) ∧
  (∀ s : State, exec .halt s = .next { s with status := .halted }) ∧
  (∀ s : State, s.status = .running → s.pc.toNat ≤ 4094 → nextWord s = 0x0000 →
    ∃ t, step s = .next t ∧ t = { s with status := .halted, pc := t.pc } ∧
      t.pc.toNat = s.pc.toNat + 2)

/-- 41_control_flow.md R76: one word; with sp = 0 StackUnderflow(0), otherwise sp decreases by 1 and
the whole entry then at sp goes to the pc; no entry is cleared. -/
def Obligations.RetPopsTheEntry : Prop :=
  (∀ w : Word, decodeWord w = .ok .ret ↔ w = 0x00EE) ∧
  (∀ s : State, s.sp.val = 0 →
    exec .ret s = .next { s with status := .faulted, faultKind := .stackUnderflow, faultInfo := 0 }) ∧
  (∀ s : State, 0 < s.sp.val →
    exec .ret s = .next { s with sp := Fin.ofNat 17 (s.sp.val - 1),
                                 pc := s.stack[Fin.ofNat 16 (s.sp.val - 1)] })

/-- 41_control_flow.md R77: the words 0x2nnn; with 16 entries in use StackOverflow(16), otherwise the
advanced pc is stored, sp increases by 1, and the pc is addr zero-extended. -/
def Obligations.CallPushesTheReturnAddress : Prop :=
  (∀ (w : Word) (addr : Address), decodeWord w = .ok (.call addr) ↔ w.toNat = 0x2000 + addr.toNat) ∧
  (∀ (s : State) (addr : Address), 16 ≤ s.sp.val →
    exec (.call addr) s
      = .next { s with status := .faulted, faultKind := .stackOverflow, faultInfo := 16 }) ∧
  (∀ (s : State) (addr : Address), s.sp.val < 16 →
    exec (.call addr) s = .next { s with stack := s.stack.set (Fin.ofNat 16 s.sp.val) s.pc,
                                         sp := Fin.ofNat 17 (s.sp.val + 1),
                                         pc := BitVec.ofNat 16 addr.toNat })

/-- 42_arithmetic.md R85: the words 0x8xy4; V[x] gets the sum of the old V[x] and V[y] modulo 256,
then V[15] gets 1 or 0. -/
def Obligations.AddWritesSumThenCarry : Prop :=
  (∀ (w : Word) (x y : RegIndex),
    decodeWord w = .ok (.add x y) ↔ w.toNat = 0x8004 + x.val * 256 + y.val * 16) ∧
  ∀ (s : State) (x y : RegIndex),
    exec (.add x y) s = .next { s with
      v := (s.v.set x (BitVec.ofNat 8 ((s.v[x].toNat + s.v[y].toNat) % 256))).set 15
        (if s.v[x].toNat + s.v[y].toNat > 255 then 1 else 0) }

/-- 42_arithmetic.md R86 (property P2): the wrapped sum and the carry, as bits of the 9-bit sum, for
x other than 15; and the machine's other arithmetic is exact. -/
def Obligations.ArithmeticLaws : Prop :=
  (∀ (s : State) (x y : RegIndex), x ≠ 15 →
    ∃ t, exec (.add x y) s = .next t ∧ t.status = s.status ∧
      t.v[x].toNat = (s.v[x].toNat + s.v[y].toNat) % 256 ∧
      t.v[15].toNat = (s.v[x].toNat + s.v[y].toNat) / 256 ∧
      (t.v[15] = 1 ↔ s.v[x].toNat + s.v[y].toNat > 255) ∧
      (t.v[15] = 0 ↔ s.v[x].toNat + s.v[y].toNat ≤ 255)) ∧
  (∀ s : State, s.pc.toNat ≤ 4094 → (advance s).pc.toNat = s.pc.toNat + 2) ∧
  (∀ (s : State) (addr : Address), s.sp.val < 16 →
    ∃ t, exec (.call addr) s = .next t ∧ t.sp.val = s.sp.val + 1) ∧
  (∀ s : State, 0 < s.sp.val → ∃ t, exec .ret s = .next t ∧ t.sp.val + 1 = s.sp.val)

/-- 42_arithmetic.md R87, by decision D6: with x = 15 the flag write wins, the sum is lost, and no
other register changes. -/
def Obligations.AddIntoTheFlagKeepsTheCarry : Prop :=
  ∀ (s : State) (y : RegIndex),
    ∃ t, exec (.add 15 y) s = .next t ∧
      t.v[15].toNat = (s.v[15].toNat + s.v[y].toNat) / 256 ∧
      ∀ r : RegIndex, r ≠ 15 → t.v[r] = s.v[r]

/-- 42_arithmetic.md R88 and R89 (both marked derived there): V[15] as a source is read before it is
overwritten, and x = y doubles. -/
def Obligations.AddReadsBeforeItWrites : Prop :=
  (∀ (s : State) (x : RegIndex), x ≠ 15 →
    ∃ t, exec (.add x 15) s = .next t ∧
      t.v[x].toNat = (s.v[x].toNat + s.v[15].toNat) % 256 ∧
      t.v[15].toNat = (s.v[x].toNat + s.v[15].toNat) / 256) ∧
  (∀ (s : State) (x : RegIndex), x ≠ 15 →
    ∃ t, exec (.add x x) s = .next t ∧ t.v[x].toNat = 2 * s.v[x].toNat % 256 ∧
      (t.v[15] = 1 ↔ s.v[x].toNat ≥ 128))

/-- 10_state.md R12: an ADD leaves 0 or 1 in V[15], and what V[15] held before does not matter to an
ADD that does not name it. -/
def Obligations.FlagIsNeverStale : Prop :=
  ∀ (s : State) (x y : RegIndex),
    (∃ t, exec (.add x y) s = .next t ∧ (t.v[15] = 0 ∨ t.v[15] = 1)) ∧
    (x ≠ 15 → y ≠ 15 → ∀ f : Byte, exec (.add x y) (writeReg 15 f s) = exec (.add x y) s)

/-! ### Frames -/

/-- HALT, RET and CALL leave every general register and every byte of memory as they are
(10_state.md R13, 20_memory.md R37); HALT leaves all but the status; RET leaves every stack entry, and
CALL every entry but the one at sp; where RET and CALL do not fault, they leave the status and fault
registers, and where they fault, the pc and sp (60_exceptions.md R97, R98). -/
def Obligations.ControlFlowFrame : Prop :=
  ∀ (i : Instr) (s t : State), (i = .halt ∨ i = .ret ∨ ∃ addr, i = .call addr) →
    exec i s = .next t →
    (∀ r : RegIndex, readReg r t = readReg r s) ∧
    (∀ a : Nat, Memory.readByte t.mem a = Memory.readByte s.mem a) ∧
    (∀ k : Fin 16, ((∃ addr, i = .call addr) → k.val ≠ s.sp.val) → t.stack[k] = s.stack[k]) ∧
    (i = .halt → t.pc = s.pc ∧ t.sp = s.sp ∧ t.faultKind = s.faultKind ∧ t.faultInfo = s.faultInfo) ∧
    (i = .ret → if s.sp.val = 0 then t.pc = s.pc ∧ t.sp = s.sp
      else t.status = s.status ∧ t.faultKind = s.faultKind ∧ t.faultInfo = s.faultInfo) ∧
    (∀ addr, i = .call addr → if s.sp.val = 16 then t.pc = s.pc ∧ t.sp = s.sp ∧ t.stack = s.stack
      else t.status = s.status ∧ t.faultKind = s.faultKind ∧ t.faultInfo = s.faultInfo)

/-- ADD leaves every register but V[x] and V[15], and all the rest of the state (42_arithmetic.md R85,
10_state.md R13, R15 (d)). -/
def Obligations.AddFrame : Prop :=
  ∀ (s t : State) (x y : RegIndex), exec (.add x y) s = .next t →
    (∀ r : RegIndex, r ≠ x → r ≠ 15 → readReg r t = readReg r s) ∧
    (∀ a : Nat, Memory.readByte t.mem a = Memory.readByte s.mem a) ∧
    (∀ k : Fin 16, t.stack[k] = s.stack[k]) ∧
    t.pc = s.pc ∧ t.sp = s.sp ∧ t.status = s.status ∧
    t.faultKind = s.faultKind ∧ t.faultInfo = s.faultInfo

/-- 20_memory.md R37 (its marked consequence): memory is constant over any number of steps. -/
def Obligations.MemoryIsConstantInARun : Prop :=
  ∀ (s : State) (n a : Nat),
    Memory.readByte (afterSteps n s).mem a = Memory.readByte s.mem a

/-- 10_state.md R13: a step changes a general register only by an ADD, and then only V[x] or V[15]. -/
def Obligations.RegistersChangeOnlyByAdd : Prop :=
  ∀ (s t : State) (r : RegIndex), step s = .next t → readReg r t ≠ readReg r s →
    s.status = .running ∧ s.pc.toNat ≤ 4094 ∧
    ∃ x y, decodeWord (nextWord s) = .ok (.add x y) ∧ (r = x ∨ r = 15)

/-- 10_state.md R15 and 41_control_flow.md R79: where a step goes on running, the pc is the advanced
one (ADD), CALL's address, or the entry RET popped. -/
def Obligations.PcMovesOnlyAsListed : Prop :=
  ∀ s t : State, step s = .next t → t.status = .running →
    (t.pc.toNat = s.pc.toNat + 2 ∧ ∃ x y, decodeWord (nextWord s) = .ok (.add x y)) ∨
    (∃ addr, decodeWord (nextWord s) = .ok (.call addr) ∧ t.pc.toNat = addr.toNat) ∨
    (decodeWord (nextWord s) = .ok .ret ∧ 0 < s.sp.val ∧
      t.pc = s.stack[Fin.ofNat 16 (s.sp.val - 1)])

/-! ### Faults -/

/-- 60_exceptions.md R96: OutOfBounds exactly when the fetch would pass the end, with the pc
unadvanced and nothing else changed. -/
def Obligations.FetchPastTheEndFaults : Prop :=
  (∀ s : State, s.status = .running → 4095 ≤ s.pc.toNat →
    step s = .next { s with status := .faulted, faultKind := .outOfBounds, faultInfo := s.pc }) ∧
  (∀ s t : State, s.status = .running → s.faultKind = .noFault → step s = .next t →
    t.faultKind = .outOfBounds → 4095 ≤ s.pc.toNat)

/-- 60_exceptions.md R97: a CALL fetched with 16 entries in use. -/
def Obligations.CallOnAFullStackFaults : Prop :=
  ∀ s : State, s.status = .running → s.pc.toNat ≤ 4094 → (nextWord s).toNat / 4096 = 2 →
    16 ≤ s.sp.val →
    step s = .next { s with pc := s.pc + 2, status := .faulted, faultKind := .stackOverflow,
                            faultInfo := 16 }

/-- 60_exceptions.md R98: a RET fetched with no entry in use. -/
def Obligations.RetOnAnEmptyStackFaults : Prop :=
  ∀ s : State, s.status = .running → s.pc.toNat ≤ 4094 → nextWord s = 0x00EE → s.sp.val = 0 →
    step s = .next { s with pc := s.pc + 2, status := .faulted, faultKind := .stackUnderflow,
                            faultInfo := 0 }

/-- 60_exceptions.md R99 and 30_encoding.md R52: a fetched word that matches no row. -/
def Obligations.UnlistedWordFaults : Prop :=
  ∀ s : State, s.status = .running → s.pc.toNat ≤ 4094 → rowsOf (nextWord s) = [] →
    step s = .next { s with pc := s.pc + 2, status := .faulted, faultKind := .unimplementedOpcode,
                            faultInfo := nextWord s }

/-- 60_exceptions.md R100 and R101 (decisions D16 and D5): whatever the fault, a step that takes one
changes the pc as the kind says and the three fault registers, and nothing else. -/
def Obligations.FaultsArePrecise : Prop :=
  ∀ s t : State, s.status = .running → step s = .next t → t.status = .faulted →
    t = { s with pc := t.pc, status := .faulted, faultKind := t.faultKind, faultInfo := t.faultInfo } ∧
    t.faultKind ≠ .noFault ∧
    t.pc = (if t.faultKind = .outOfBounds then s.pc else s.pc + 2)

/-- 40_execution_cycle.md R69 (marked derived there): the transitions of the status. -/
def Obligations.StatusTransitions : Prop :=
  ∀ s t : State, step s = .next t →
    (s.status ≠ .running → t = s) ∧
    (s.status = .running →
      (t.status = .halted ↔ s.pc.toNat ≤ 4094 ∧ nextWord s = 0x0000) ∧
      (t.status = .faulted ↔ 4095 ≤ s.pc.toNat ∨ rowsOf (nextWord s) = [] ∨
        (nextWord s = 0x00EE ∧ s.sp.val = 0) ∨
        ((nextWord s).toNat / 4096 = 2 ∧ s.sp.val = 16)))

/-! ### The call stack over many steps -/

/-- 41_control_flow.md R80 (property P4): 17 nested CALLs from an empty stack, with any ADDs before and
between them and no RET, fill it and fault on the 17th; a CALL on a full stack and a RET with an empty
one fault, and sp never wraps. -/
def Obligations.StackBoundsAreFaults : Prop :=
  (∀ (s : State) (n : Nat), s.status = .running → s.sp.val = 0 →
    (∀ k ≤ n, (afterSteps k s).pc.toNat ≤ 4094 ∧
      (atCall (afterSteps k s) = true ∨ atAdd (afterSteps k s) = true)) →
    callsIn n s = 16 → atCall (afterSteps n s) = true →
    (∀ k ≤ n, (afterSteps k s).sp.val = callsIn k s ∧ (afterSteps k s).status = .running) ∧
    (afterSteps (n + 1) s).status = .faulted ∧
    (afterSteps (n + 1) s).faultKind = .stackOverflow ∧
    (afterSteps (n + 1) s).sp.val = 16) ∧
  (∀ s : State, s.status = .running → s.pc.toNat ≤ 4094 → atCall s = true → s.sp.val = 16 →
    (afterSteps 1 s).status = .faulted ∧ (afterSteps 1 s).faultKind = .stackOverflow ∧
    (afterSteps 1 s).sp.val = 16) ∧
  (∀ s : State, s.status = .running → s.pc.toNat ≤ 4094 → nextWord s = 0x00EE → s.sp.val = 0 →
    (afterSteps 1 s).status = .faulted ∧ (afterSteps 1 s).faultKind = .stackUnderflow ∧
    (afterSteps 1 s).sp.val = 0)

/-- 41_control_flow.md R78 (property P3, in the spec's own derived terms): a CALL fetched at p, then
steps that keep sp above its depth, then the RET that comes back to it: execution resumes at p + 2. -/
def Obligations.CallThenRetResumes : Prop :=
  ∀ (s : State) (addr : Address) (m : Nat),
    s.status = .running → s.pc.toNat ≤ 4094 → s.sp.val < 16 →
    decodeWord (nextWord s) = .ok (.call addr) → 1 ≤ m →
    (∀ k, 1 ≤ k → k ≤ m → s.sp.val < (afterSteps k s).sp.val) →
    (afterSteps m s).status = .running → (afterSteps m s).pc.toNat ≤ 4094 →
    decodeWord (nextWord (afterSteps m s)) = .ok .ret → (afterSteps m s).sp.val = s.sp.val + 1 →
    (afterSteps (m + 1) s).sp = s.sp ∧ (afterSteps (m + 1) s).pc.toNat = s.pc.toNat + 2

/-- 40_execution_cycle.md R66 with R71 (the spec marks R71 as derived): every run ends, and ends at
the first state whose status is not running, which is what the Run transaction reports. -/
def Obligations.RunEndsAtTheFirstStop : Prop :=
  ∀ s : State, ∃ n, run s = .next (afterSteps n s) ∧ (afterSteps n s).status ≠ .running ∧
    (∀ k < n, (afterSteps k s).status = .running) ∧
    ∀ phase : Phase, transact .run ⟨s, phase⟩ = .next (⟨afterSteps n s, .run⟩, .finished
      (if (afterSteps n s).status = .halted
        then .final ⟨(afterSteps n s).v, (afterSteps n s).pc, (afterSteps n s).sp⟩
        else .fault (afterSteps n s).faultKind (afterSteps n s).faultInfo))

/-- 40_execution_cycle.md R72 (property P1): where the first word is 0x0000, the run ends at once with
nothing changed but the status and the pc. -/
def Obligations.HaltIsTerminal : Prop :=
  ∀ s : State, s.status = .running → s.pc.toNat ≤ 4094 → nextWord s = 0x0000 →
    run s = .next { s with status := .halted, pc := s.pc + 2 }

/-! ### Invariants and what a step cannot learn -/

/-- Every field of the reset state (10_state.md R23, 70_reset_and_hazards.md R120; that memory is
cleared is decision D10), and the invariants there. -/
def Obligations.ResetState : Prop :=
  (∀ r : RegIndex, readReg r State.reset = 0) ∧ State.reset.pc = 0 ∧
  (∀ k : Fin 16, State.reset.stack[k] = 0) ∧ State.reset.sp = 0 ∧
  State.reset.status = .running ∧ State.reset.faultKind = .noFault ∧ State.reset.faultInfo = 0 ∧
  (∀ a : Nat, Memory.readByte State.reset.mem a = 0) ∧
  State.reset.Inv ∧ State.reset.PcBounded

/-- Every step keeps the invariant: memory canonical, and a stopped machine whose status, fault
registers, pc, sp and memory agree on what stopped it (10_state.md R20, R21; 60_exceptions.md R101). -/
def Obligations.StepKeepsTheInvariant : Prop :=
  ∀ s t : State, s.Inv → step s = .next t → t.Inv

/-- Every step keeps the pc and all stack entries at or below 4096 (92_eei_decisions.md D1). -/
def Obligations.StepKeepsThePcBounded : Prop :=
  ∀ s t : State, s.PcBounded → step s = .next t → t.PcBounded

/-- 20_memory.md R31 (marked derived there): bytes that are not fetched have no effect on a step. -/
def Obligations.UnfetchedBytesHaveNoEffect : Prop :=
  ∀ s t : State, SameFetch s t →
    ∃ u, step s = .next u ∧ step t = .next { u with mem := t.mem }

/-! ### The host -/

/-- 70_reset_and_hazards.md R127: Step performs a step while running and otherwise changes nothing,
and reports Continue, Halted or Fault(kind, info). -/
def Obligations.StepTransaction : Prop :=
  ∀ x : Session,
    (x.machine.status = .running → ∃ u, step x.machine = .next u ∧ ∃ o,
      transact .step x = .next (⟨u, .run⟩, .stepped o) ∧
      (u.status = .running → o = .continues) ∧ (u.status = .halted → o = .halted) ∧
      (u.status = .faulted → o = .fault u.faultKind u.faultInfo)) ∧
    (x.machine.status = .halted → transact .step x = .next (⟨x.machine, .run⟩, .stepped .halted)) ∧
    (x.machine.status = .faulted → transact .step x =
      .next (⟨x.machine, .run⟩, .stepped (.fault x.machine.faultKind x.machine.faultInfo)))

/-- 70_reset_and_hazards.md R123 (decision D11): the image from address 0, zeros behind it, nothing
else touched; a longer image is refused. -/
def Obligations.LoadImagePlacesTheBytes : Prop :=
  ∀ (x : Session) (bytes : List Byte), x.phase = .load →
    (bytes.length ≤ 4096 → ∃ y, transact (.loadImage bytes) x = .next (y, .nothing) ∧
      y.phase = .load ∧ y.machine = { x.machine with mem := y.machine.mem } ∧
      Memory.wf y.machine.mem = true ∧
      ∀ a : Nat, Memory.readByte y.machine.mem a = bytes.getD a 0) ∧
    (4096 < bytes.length → transact (.loadImage bytes) x = .refused (.imageTooLong bytes.length))

/-- 70_reset_and_hazards.md R124: any of the 16 registers, register 15 too, gets any 8-bit value; what
register 15 is seeded with does not matter to an ADD that does not name it. -/
def Obligations.SeedRegisterSetsOne : Prop :=
  ∀ (x : Session) (i : RegIndex) (b : Byte), x.phase = .load →
    ∃ y, transact (.seedRegister i b) x = .next (y, .nothing) ∧ y.phase = .load ∧
      readReg i y.machine = b ∧ (∀ r : RegIndex, r ≠ i → readReg r y.machine = readReg r x.machine) ∧
      y.machine = { x.machine with v := y.machine.v } ∧
      (i = 15 → ∀ p q : RegIndex, p ≠ 15 → q ≠ 15 →
        exec (.add p q) y.machine = exec (.add p q) x.machine)

/-- 70_reset_and_hazards.md R125 and R126 (decisions D1 and D2): SetPC takes any 16-bit value;
LoadStack sets the entries it lists and sp, and refuses more than 16. -/
def Obligations.SetPcAndLoadStack : Prop :=
  ∀ x : Session, x.phase = .load →
    (∀ a : Word, transact (.setPc a) x = .next (⟨{ x.machine with pc := a }, .load⟩, .nothing)) ∧
    (∀ entries : List Word, entries.length ≤ 16 →
      ∃ y, transact (.loadStack entries) x = .next (y, .nothing) ∧ y.phase = .load ∧
        y.machine.sp.val = entries.length ∧
        (∀ k : Fin 16, y.machine.stack[k] =
          if k.val < entries.length then entries.getD k.val 0 else x.machine.stack[k]) ∧
        y.machine = { x.machine with stack := y.machine.stack, sp := y.machine.sp }) ∧
    (∀ entries : List Word, 16 < entries.length →
      transact (.loadStack entries) x = .refused (.stackLoadTooLong entries.length))

/-- 70_reset_and_hazards.md R121 and R120 (decision D9): the first Step or Run ends the load phase, no
write has a meaning after it, and Reset starts again from anywhere. -/
def Obligations.WritesOnlyInTheLoadPhase : Prop :=
  (∀ (x : Session) (t : Transaction), x.phase = .run → t.writes = true →
    ∃ r, transact t x = .refused r) ∧
  (∀ (x y : Session) (t : Transaction) (reply : Reply), (t = .step ∨ t = .run) →
    transact t x = .next (y, reply) → y.phase = .run) ∧
  (∀ x : Session, transact .reset x = .next (⟨State.reset, .load⟩, .nothing)) ∧
  (∀ (x y : Session) (r : Readable) (reply : Reply),
    transact (.read r) x = .next (y, reply) → y = x)

/-- 70_reset_and_hazards.md R136 (marked derived there): what every launch that follows the protocol
has, after any load-phase writes. -/
def Obligations.LaunchPremises : Prop :=
  ∀ (ts : List Transaction) (x : Session), (∀ t ∈ ts, t.writes = true) →
    transactAll ts Session.start = .next x →
    x.Launchable ∧
    ((∀ entries, Transaction.loadStack entries ∉ ts) → x.machine.sp.val = 0) ∧
    ((∀ a, Transaction.setPc a ∉ ts) → x.machine.pc = 0) ∧
    ((∀ bytes, Transaction.loadImage bytes ∉ ts) → x.machine.mem = []) ∧
    (∀ i, (∀ b, Transaction.seedRegister i b ∉ ts) → readReg i x.machine = 0)

/-- 70_reset_and_hazards.md R134 (decision D13): "LoadImage is a sequence of `mem` writes". -/
def Obligations.PortWritesLoadTheImage : Prop :=
  ∀ (s : State) (bytes : List Byte), s.mem = [] → bytes.length ≤ 4096 →
    ∃ y, portLoadImage 0 bytes ⟨s, .load⟩ = .next y ∧
      transact (.loadImage bytes) ⟨s, .load⟩ = .next (y, .nothing)

/-- 70_reset_and_hazards.md R134 (decision D13): in the load phase the port's V, pc and sp writes are
the transactions' and status, fault_kind and fault_info are read-only; a value of sp above 16 is
ignored; after launch no write is honoured. -/
def Obligations.PortWritesOfRegisters : Prop :=
  (∀ (s : State) (data : Word) (addr : Address),
    (∀ h : addr.toNat < 16, portWrite 1 addr data ⟨s, .load⟩
      = .next ⟨writeReg ⟨addr.toNat, h⟩ (BitVec.ofNat 8 data.toNat) s, .load⟩) ∧
    (∀ h : addr.toNat < 16, portWrite 2 addr data ⟨s, .load⟩
      = .next ⟨writeEntry ⟨addr.toNat, h⟩ data s, .load⟩) ∧
    portWrite 3 0 data ⟨s, .load⟩ = .next ⟨{ s with pc := data }, .load⟩ ∧
    (data.toNat % 32 ≤ 16 → portWrite 3 1 data ⟨s, .load⟩
      = .next ⟨{ s with sp := Fin.ofNat 17 (data.toNat % 32) }, .load⟩) ∧
    (16 < data.toNat % 32 → portWrite 3 1 data ⟨s, .load⟩ = .next ⟨s, .load⟩) ∧
    ((addr = 2 ∨ addr = 3 ∨ addr = 4) → portWrite 3 addr data ⟨s, .load⟩ = .next ⟨s, .load⟩)) ∧
  (∀ (s : State) (space : BitVec 2) (addr : Address) (data : Word) (y : Session),
    portWrite space addr data ⟨s, .run⟩ = .next y → y = ⟨s, .run⟩)

/-- 70_reset_and_hazards.md R129 and R134 (decisions D9, D13, D3): what the port reads, zero-extended,
with the codes of status (10_state.md R19) and fault_kind (R20). -/
def Obligations.PortReadsTheState : Prop :=
  ∀ s : State,
    (∀ a : Address, portRead 0 a s = .next (BitVec.ofNat 16 (Memory.readByte s.mem a.toNat).toNat)) ∧
    (∀ (addr : Address) (h : addr.toNat < 16),
      portRead 1 addr s = .next (BitVec.ofNat 16 (readReg ⟨addr.toNat, h⟩ s).toNat) ∧
      portRead 2 addr s = .next s.stack[addr.toNat]) ∧
    portRead 3 0 s = .next s.pc ∧ portRead 3 1 s = .next (BitVec.ofNat 16 s.sp.val) ∧
    (s.status = .running → portRead 3 2 s = .next 0) ∧
    (s.status = .halted → portRead 3 2 s = .next 1) ∧
    (s.status = .faulted → portRead 3 2 s = .next 2) ∧
    (s.faultKind = .noFault → portRead 3 3 s = .next 0) ∧
    (s.faultKind = .outOfBounds → portRead 3 3 s = .next 1) ∧
    (s.faultKind = .stackOverflow → portRead 3 3 s = .next 2) ∧
    (s.faultKind = .stackUnderflow → portRead 3 3 s = .next 3) ∧
    (s.faultKind = .unimplementedOpcode → portRead 3 3 s = .next 4) ∧
    portRead 3 4 s = .next s.faultInfo
end

