-- ==== Sys2Proof/Laws/Memory.lean ====
section
/-! SUPPORT. The laws of memory: read after write, the canonical form and what keeps it, and that
canonical memories with equal bytes are equal. -/

namespace Sys2Proof.Machine

/-! ### What the canonical form says -/

@[simp] theorem Memory.wfFrom_nil (low : Nat) : wfFrom low [] = true := rfl

@[simp] theorem Memory.wfFrom_cons (low k : Nat) (b : Byte) (rest : Memory) :
    wfFrom low ((k, b) :: rest) = true ↔
      low ≤ k ∧ k < 4096 ∧ b ≠ 0 ∧ wfFrom (k + 1) rest = true := by
  simp [wfFrom, and_assoc]

theorem Memory.wfFrom_mono {low low' : Nat} {m : Memory} (hle : low' ≤ low) (h : wfFrom low m = true) :
    wfFrom low' m = true := by
  cases m with
  | nil => rfl
  | cons c rest =>
    obtain ⟨k, b⟩ := c
    simp only [wfFrom_cons] at h ⊢
    exact ⟨by omega, h.2⟩

/-- Below its lower bound a canonical memory holds zeros. -/
theorem Memory.readByte_below {low a : Nat} {m : Memory} (h : wfFrom low m = true) (ha : a < low) :
    readByte m a = 0 := by
  induction m generalizing low with
  | nil => rfl
  | cons c rest ih =>
    obtain ⟨k, b⟩ := c
    simp only [wfFrom_cons] at h
    have hk : k ≠ a := by omega
    simp only [readByte, hk, if_false]
    exact ih h.2.2.2 (by omega)

/-! ### Putting a byte in front -/

theorem Memory.readByte_cons {a c : Nat} {b : Byte} {m : Memory} (h : wfFrom (a + 1) m = true) :
    readByte (cons a b m) c = if c = a then b else readByte m c := by
  unfold cons
  by_cases hb : b = 0
  · by_cases hc : c = a
    · simp [hb, hc, readByte_below h (Nat.lt_succ_self a)]
    · simp [hb, hc]
  · simp only [hb, if_false, readByte, eq_comm (a := a)]

theorem Memory.wfFrom_cons_byte {low a : Nat} {b : Byte} {m : Memory} (hlow : low ≤ a) (ha : a < 4096)
    (h : wfFrom (a + 1) m = true) : wfFrom low (cons a b m) = true := by
  unfold cons
  split
  · exact wfFrom_mono (by omega) h
  · exact (wfFrom_cons ..).2 ⟨hlow, ha, ‹_›, h⟩

/-! ### Writing one byte -/

theorem Memory.wfFrom_writeByte {low a : Nat} {b : Byte} {m : Memory} (h : wfFrom low m = true)
    (hlow : low ≤ a) (ha : a < 4096) : wfFrom low (writeByte m a b) = true := by
  induction m generalizing low with
  | nil => exact wfFrom_cons_byte hlow ha rfl
  | cons c rest ih =>
    obtain ⟨k, d⟩ := c
    simp only [wfFrom_cons] at h
    simp only [writeByte]
    split
    · exact wfFrom_cons_byte hlow ha ((wfFrom_cons ..).2 ⟨by omega, h.2⟩)
    · split
      · exact wfFrom_cons_byte hlow ha (wfFrom_mono (by omega) h.2.2.2)
      · simp only [wfFrom_cons]
        exact ⟨h.1, h.2.1, h.2.2.1, ih h.2.2.2 (by omega)⟩

theorem Memory.readByte_writeByte_from {low a c : Nat} {b : Byte} {m : Memory} (h : wfFrom low m = true) :
    readByte (writeByte m a b) c = if c = a then b else readByte m c := by
  induction m generalizing low with
  | nil => exact readByte_cons rfl
  | cons cell rest ih =>
    obtain ⟨k, d⟩ := cell
    simp only [wfFrom_cons] at h
    simp only [writeByte]
    split
    · exact readByte_cons ((wfFrom_cons ..).2 ⟨by omega, h.2⟩)
    · split
      · subst a
        rw [readByte_cons h.2.2.2]
        by_cases hc : c = k
        · simp [hc]
        · have : k ≠ c := fun e => hc e.symm
          simp [readByte, hc, this]
      · by_cases hk : k = c
        · have : c ≠ a := by omega
          simp [readByte, hk, this]
        · simp [readByte, hk, ih h.2.2.2]

/-! ### The whole memory -/

/-- Read after write: the byte written, and every other byte left alone. -/
theorem Memory.readByte_writeByte {m : Memory} (h : wf m = true) (a c : Nat) (b : Byte) :
    readByte (writeByte m a b) c = if c = a then b else readByte m c :=
  readByte_writeByte_from h

/-- A write keeps the canonical form. -/
theorem Memory.wf_writeByte {m : Memory} (h : wf m = true) {a : Nat} (ha : a < 4096) (b : Byte) :
    wf (writeByte m a b) = true :=
  wfFrom_writeByte h (Nat.zero_le a) ha

/-- Nothing is listed at or above 4096. -/
theorem Memory.readByte_above {low a : Nat} {m : Memory} (h : wfFrom low m = true) (ha : 4096 ≤ a) :
    readByte m a = 0 := by
  induction m generalizing low with
  | nil => rfl
  | cons c rest ih =>
    obtain ⟨k, b⟩ := c
    simp only [wfFrom_cons] at h
    have hk : k ≠ a := by omega
    simp only [readByte, hk, if_false]
    exact ih h.2.2.2

/-- Canonical memories with the same bytes are the same data. -/
theorem Memory.ext_from {low : Nat} {m n : Memory} (hm : wfFrom low m = true) (hn : wfFrom low n = true)
    (h : ∀ a, readByte m a = readByte n a) : m = n := by
  induction m generalizing low n with
  | nil =>
    cases n with
    | nil => rfl
    | cons c rest =>
      obtain ⟨k, b⟩ := c
      simp only [wfFrom_cons] at hn
      exact absurd (by simpa [readByte] using (h k).symm) hn.2.2.1
  | cons c rest ih =>
    obtain ⟨k, b⟩ := c
    simp only [wfFrom_cons] at hm
    cases n with
    | nil =>
      exact absurd (by simpa [readByte] using h k) hm.2.2.1
    | cons d rest' =>
      obtain ⟨j, e⟩ := d
      simp only [wfFrom_cons] at hn
      have hkj : k = j := by
        rcases Nat.lt_trichotomy k j with hlt | heq | hgt
        · have h1 := h k
          have h2 := readByte_below (a := k) hn.2.2.2 (by omega)
          have hne : j ≠ k := by omega
          simp only [readByte, if_true, hne, if_false, h2] at h1
          exact absurd h1 hm.2.2.1
        · exact heq
        · have h1 := h j
          have h2 := readByte_below (a := j) hm.2.2.2 (by omega)
          have hne : k ≠ j := by omega
          simp only [readByte, if_true, hne, if_false, h2] at h1
          exact absurd h1.symm hn.2.2.1
      subst j
      have hbe : b = e := by simpa [readByte] using h k
      subst e
      congr 1
      refine ih hm.2.2.2 hn.2.2.2 fun a => ?_
      by_cases hak : k = a
      · rw [readByte_below hm.2.2.2 (by omega), readByte_below hn.2.2.2 (by omega)]
      · simpa [readByte, hak] using h a

theorem Memory.ext {m n : Memory} (hm : wf m = true) (hn : wf n = true)
    (h : ∀ a, readByte m a = readByte n a) : m = n :=
  ext_from hm hn h

/-! ### An image -/

theorem Memory.wfFrom_ofBytes (bytes : List Byte) {start : Nat} (h : start + bytes.length ≤ 4096) :
    wfFrom start (ofBytes start bytes) = true := by
  induction bytes generalizing start with
  | nil => rfl
  | cons b bs ih =>
    simp only [List.length_cons] at h
    exact wfFrom_cons_byte (Nat.le_refl start) (by omega) (ih (by omega))

/-- An image of a legal length is a canonical memory. -/
theorem Memory.wf_ofBytes (bytes : List Byte) (h : bytes.length ≤ 4096) : wf (ofBytes 0 bytes) = true :=
  wfFrom_ofBytes bytes (by omega)

theorem Memory.readByte_ofBytes_from (bytes : List Byte) {start : Nat} (h : start + bytes.length ≤ 4096)
    (i : Nat) : readByte (ofBytes start bytes) (start + i) = bytes.getD i 0 := by
  induction bytes generalizing start i with
  | nil => rfl
  | cons b bs ih =>
    simp only [List.length_cons] at h
    simp only [ofBytes]
    rw [readByte_cons (wfFrom_ofBytes bs (by omega))]
    cases i with
    | zero => simp
    | succ i =>
      have := ih (start := start + 1) (by omega) i
      rw [show start + (i + 1) = start + 1 + i by omega, this]
      simp; omega

/-- An image puts its bytes at 0, 1, … and zeros behind them. -/
theorem Memory.readByte_ofBytes (bytes : List Byte) (h : bytes.length ≤ 4096) (a : Nat) :
    readByte (ofBytes 0 bytes) a = bytes.getD a 0 := by
  simpa using readByte_ofBytes_from bytes (start := 0) (by omega) a

/-- Reset lists nothing, so its memory is canonical. -/
theorem wf_reset : Memory.wf State.reset.mem = true := rfl

/-- The host's single byte write keeps the canonical form (R6, R37). -/
theorem wf_memWrite {a : Nat} {b : Byte} {s t : State} (h : Memory.wf s.mem = true)
    (hw : memWrite a b s = .next t) : Memory.wf t.mem = true := by
  unfold memWrite at hw
  split at hw
  · injection hw with hw; subst hw; exact Memory.wf_writeByte h ‹_› b
  · cases hw

/-- Placing a word at a fetchable pc keeps the canonical form. -/
theorem wf_placeAtPc {w : Word} {s : State} (h : Memory.wf s.mem = true) (hp : s.pc.toNat ≤ 4094) :
    Memory.wf (placeAtPc w s).mem = true :=
  Memory.wf_writeByte (Memory.wf_writeByte h (by omega) _) (by omega) _

end Sys2Proof.Machine
end

