-- ==== Sys2Proof/Laws/State.lean ====
section
/-! SUPPORT. One lemma per field per update of the state, so that no proof unfolds an update. -/

namespace Sys2Proof.Machine

variable (s : State)

@[simp] theorem writeReg_v (i : RegIndex) (b : Byte) : (writeReg i b s).v = s.v.set i b := rfl
@[simp] theorem writeReg_pc (i : RegIndex) (b : Byte) : (writeReg i b s).pc = s.pc := rfl
@[simp] theorem writeReg_stack (i : RegIndex) (b : Byte) : (writeReg i b s).stack = s.stack := rfl
@[simp] theorem writeReg_sp (i : RegIndex) (b : Byte) : (writeReg i b s).sp = s.sp := rfl
@[simp] theorem writeReg_status (i : RegIndex) (b : Byte) : (writeReg i b s).status = s.status := rfl
@[simp] theorem writeReg_faultKind (i : RegIndex) (b : Byte) : (writeReg i b s).faultKind = s.faultKind := rfl
@[simp] theorem writeReg_faultInfo (i : RegIndex) (b : Byte) : (writeReg i b s).faultInfo = s.faultInfo := rfl
@[simp] theorem writeReg_mem (i : RegIndex) (b : Byte) : (writeReg i b s).mem = s.mem := rfl

@[simp] theorem setPc_v (a : Word) : (setPc a s).v = s.v := rfl
@[simp] theorem setPc_pc (a : Word) : (setPc a s).pc = a := rfl
@[simp] theorem setPc_stack (a : Word) : (setPc a s).stack = s.stack := rfl
@[simp] theorem setPc_sp (a : Word) : (setPc a s).sp = s.sp := rfl
@[simp] theorem setPc_status (a : Word) : (setPc a s).status = s.status := rfl
@[simp] theorem setPc_faultKind (a : Word) : (setPc a s).faultKind = s.faultKind := rfl
@[simp] theorem setPc_faultInfo (a : Word) : (setPc a s).faultInfo = s.faultInfo := rfl
@[simp] theorem setPc_mem (a : Word) : (setPc a s).mem = s.mem := rfl

@[simp] theorem setStatus_v (st : Status) : (setStatus st s).v = s.v := rfl
@[simp] theorem setStatus_pc (st : Status) : (setStatus st s).pc = s.pc := rfl
@[simp] theorem setStatus_stack (st : Status) : (setStatus st s).stack = s.stack := rfl
@[simp] theorem setStatus_sp (st : Status) : (setStatus st s).sp = s.sp := rfl
@[simp] theorem setStatus_status (st : Status) : (setStatus st s).status = st := rfl
@[simp] theorem setStatus_faultKind (st : Status) : (setStatus st s).faultKind = s.faultKind := rfl
@[simp] theorem setStatus_faultInfo (st : Status) : (setStatus st s).faultInfo = s.faultInfo := rfl
@[simp] theorem setStatus_mem (st : Status) : (setStatus st s).mem = s.mem := rfl

@[simp] theorem writeEntry_v (k : Fin 16) (w : Word) : (writeEntry k w s).v = s.v := rfl
@[simp] theorem writeEntry_pc (k : Fin 16) (w : Word) : (writeEntry k w s).pc = s.pc := rfl
@[simp] theorem writeEntry_stack (k : Fin 16) (w : Word) : (writeEntry k w s).stack = s.stack.set k w := rfl
@[simp] theorem writeEntry_sp (k : Fin 16) (w : Word) : (writeEntry k w s).sp = s.sp := rfl
@[simp] theorem writeEntry_status (k : Fin 16) (w : Word) : (writeEntry k w s).status = s.status := rfl
@[simp] theorem writeEntry_faultKind (k : Fin 16) (w : Word) : (writeEntry k w s).faultKind = s.faultKind := rfl
@[simp] theorem writeEntry_faultInfo (k : Fin 16) (w : Word) : (writeEntry k w s).faultInfo = s.faultInfo := rfl
@[simp] theorem writeEntry_mem (k : Fin 16) (w : Word) : (writeEntry k w s).mem = s.mem := rfl

@[simp] theorem setSp_v (n : Fin 17) : (setSp n s).v = s.v := rfl
@[simp] theorem setSp_pc (n : Fin 17) : (setSp n s).pc = s.pc := rfl
@[simp] theorem setSp_stack (n : Fin 17) : (setSp n s).stack = s.stack := rfl
@[simp] theorem setSp_sp (n : Fin 17) : (setSp n s).sp = n := rfl
@[simp] theorem setSp_status (n : Fin 17) : (setSp n s).status = s.status := rfl
@[simp] theorem setSp_faultKind (n : Fin 17) : (setSp n s).faultKind = s.faultKind := rfl
@[simp] theorem setSp_faultInfo (n : Fin 17) : (setSp n s).faultInfo = s.faultInfo := rfl
@[simp] theorem setSp_mem (n : Fin 17) : (setSp n s).mem = s.mem := rfl

@[simp] theorem raise_v (k : FaultKind) (info : Word) : (raise k info s).v = s.v := rfl
@[simp] theorem raise_pc (k : FaultKind) (info : Word) : (raise k info s).pc = s.pc := rfl
@[simp] theorem raise_stack (k : FaultKind) (info : Word) : (raise k info s).stack = s.stack := rfl
@[simp] theorem raise_sp (k : FaultKind) (info : Word) : (raise k info s).sp = s.sp := rfl
@[simp] theorem raise_status (k : FaultKind) (info : Word) : (raise k info s).status = .faulted := rfl
@[simp] theorem raise_faultKind (k : FaultKind) (info : Word) : (raise k info s).faultKind = k := rfl
@[simp] theorem raise_faultInfo (k : FaultKind) (info : Word) : (raise k info s).faultInfo = info := rfl
@[simp] theorem raise_mem (k : FaultKind) (info : Word) : (raise k info s).mem = s.mem := rfl

@[simp] theorem advance_v : (advance s).v = s.v := rfl
@[simp] theorem advance_pc : (advance s).pc = s.pc + 2 := rfl
@[simp] theorem advance_stack : (advance s).stack = s.stack := rfl
@[simp] theorem advance_sp : (advance s).sp = s.sp := rfl
@[simp] theorem advance_status : (advance s).status = s.status := rfl
@[simp] theorem advance_faultKind : (advance s).faultKind = s.faultKind := rfl
@[simp] theorem advance_faultInfo : (advance s).faultInfo = s.faultInfo := rfl
@[simp] theorem advance_mem : (advance s).mem = s.mem := rfl

/-! ### Registers and entries, read after a write -/

@[simp] theorem readReg_writeReg_same (i : RegIndex) (b : Byte) : readReg i (writeReg i b s) = b := by
  simp [readReg]

theorem readReg_writeReg_other {i r : RegIndex} (b : Byte) (h : r ≠ i) :
    readReg r (writeReg i b s) = readReg r s := by
  simp [readReg, Fin.val_ne_of_ne (Ne.symm h)]

theorem readReg_writeReg (i r : RegIndex) (b : Byte) :
    readReg r (writeReg i b s) = if r = i then b else readReg r s := by
  split
  · subst r; simp
  · exact readReg_writeReg_other s b ‹_›

/-- A register reads the same in states with the same `v`. -/
theorem readReg_congr {s t : State} (r : RegIndex) (h : t.v = s.v) : readReg r t = readReg r s := by
  simp [readReg, h]

@[simp] theorem writeEntry_stack_same (k : Fin 16) (w : Word) : (writeEntry k w s).stack[k] = w := by
  simp

theorem writeEntry_stack_other {k j : Fin 16} (w : Word) (h : j ≠ k) :
    (writeEntry k w s).stack[j] = s.stack[j] := by
  simp [Fin.val_ne_of_ne (Ne.symm h)]

/-- The advance is exact where a fetch succeeds: no wrap of the 16-bit pc (R62). -/
theorem advance_pc_toNat (h : s.pc.toNat ≤ 4094) : (advance s).pc.toNat = s.pc.toNat + 2 := by
  simp [BitVec.toNat_add]; omega

@[simp] theorem stackDepthWord_advance : stackDepthWord (advance s) = stackDepthWord s := rfl

end Sys2Proof.Machine
end

