-- ==== Sys2Proof/Laws/Words.lean ====
section
/-! SUPPORT. Small facts about words: their two bytes, and when decoding rejects. -/

namespace Sys2Proof

/-- The word of two bytes as a number (20_memory.md R32). -/
@[simp] theorem bigEndian_toNat (hi lo : Byte) :
    (bigEndian hi lo).toNat = hi.toNat * 256 + lo.toNat := by
  simp [bigEndian]; omega

@[simp] theorem highByte_toNat (w : Word) : (highByte w).toNat = w.toNat / 256 := by
  simp [highByte, Nat.shiftRight_eq_div_pow]; omega

@[simp] theorem lowByte_toNat (w : Word) : (lowByte w).toNat = w.toNat % 256 := by
  simp [lowByte]

@[simp] theorem bigEndian_highByte_lowByte (w : Word) : bigEndian (highByte w) (lowByte w) = w := by
  apply BitVec.eq_of_toNat_eq; simp; omega

@[simp] theorem highByte_bigEndian (hi lo : Byte) : highByte (bigEndian hi lo) = hi := by
  apply BitVec.eq_of_toNat_eq; simp; omega

@[simp] theorem lowByte_bigEndian (hi lo : Byte) : lowByte (bigEndian hi lo) = lo := by
  apply BitVec.eq_of_toNat_eq; simp; omega

/-- A word is rejected under one name only, with the word in it (R52). -/
theorem decodeWord_error {w : Word} {r : DecodeReject} (h : decodeWord w = .error r) :
    r = .unimplementedOpcode w := by
  unfold decodeWord at h
  split at h
  · cases h
  · injection h with h; exact h.symm

/-- Two bytes are read as the word they form. -/
theorem decodeBytes_pair {hi lo : Byte} {i : Instr} {rest : List Byte}
    (h : decodeBytes [hi, lo] = .ok (i, rest)) : decodeWord (bigEndian hi lo) = .ok i ∧ rest = [] := by
  unfold decodeBytes at h
  cases hd : decodeWord (bigEndian hi lo) with
  | ok j => simp [hd] at h; exact ⟨by rw [h.1], h.2⟩
  | error r => simp [hd] at h

/-- Every instruction is well formed: its fields have no other values. -/
theorem wellFormed_all (i : Instr) : i.wellFormed = true := by
  cases i <;> (simp [Instr.wellFormed]; try omega)

end Sys2Proof
end

