-- ==== Sys2Proof/Laws/Ops.lean ====
section
/-! SUPPORT. For each shared operation one lemma that says everything it can do, to be cited instead
of unfolding it. -/

namespace Sys2Proof.Machine

/-! ### Memory -/

/-- The 2-byte read answers wherever both addresses exist (R32). -/
theorem memRead2_next {a : Nat} {s : State} (h : a + 1 < 4096) :
    memRead2 a s = .next (wordAt s a) := by
  simp [memRead2, wordAt, h]

/-! ### The call stack -/

/-- With an entry free, a push writes it and counts it (R77). -/
theorem pushEntry_of_lt {w : Word} {s : State} (h : s.sp.val < 16) :
    pushEntry w s = some (setSp ⟨s.sp.val + 1, by omega⟩ (writeEntry ⟨s.sp.val, h⟩ w s)) := by
  simp [pushEntry, h]

theorem pushEntry_of_full {w : Word} {s : State} (h : 16 ≤ s.sp.val) : pushEntry w s = none := by
  simp [pushEntry, Nat.not_lt.2 h]

/-- With an entry in use, a pop yields it and uncounts it, clearing nothing (R76). -/
theorem popEntry_of_pos {s : State} (h : 0 < s.sp.val) :
    popEntry s = some (s.stack[s.sp.val - 1], setSp ⟨s.sp.val - 1, by omega⟩ s) := by
  simp [popEntry, h]

theorem popEntry_of_empty {s : State} (h : s.sp.val = 0) : popEntry s = none := by
  simp [popEntry, h]

/-! ### The meanings: what each can answer -/

/-- RET: the popped entry becomes the pc, or StackUnderflow is taken (R76). -/
theorem execRet_cases (s : State) :
    (∃ h : 0 < s.sp.val, execRet s =
      .next (setPc s.stack[s.sp.val - 1] (setSp ⟨s.sp.val - 1, by omega⟩ s))) ∨
    (s.sp.val = 0 ∧ execRet s = .next (raise .stackUnderflow (stackDepthWord s) s)) := by
  rcases Nat.eq_zero_or_pos s.sp.val with h | h
  · exact .inr ⟨h, by simp [execRet, popEntry_of_empty h]⟩
  · exact .inl ⟨h, by simp [execRet, popEntry_of_pos h]⟩

/-- CALL: the pc is pushed and the address becomes the pc, or StackOverflow is taken (R77). -/
theorem execCall_cases (addr : Address) (s : State) :
    (∃ h : s.sp.val < 16, execCall addr s = .next (setPc (callTarget addr)
      (setSp ⟨s.sp.val + 1, by omega⟩ (writeEntry ⟨s.sp.val, h⟩ s.pc s)))) ∨
    (s.sp.val = 16 ∧ execCall addr s = .next (raise .stackOverflow (stackDepthWord s) s)) := by
  rcases Nat.lt_or_ge s.sp.val 16 with h | h
  · exact .inl ⟨h, by simp [execCall, pushEntry_of_lt h]⟩
  · exact .inr ⟨by omega, by simp [execCall, pushEntry_of_full h]⟩

/-! ### The step around execution -/

variable {execute : Instr → State → Host.Outcome State Fault Refusal}

theorem dispatchWord_ok {w : Word} {i : Instr} {s : State} (h : decodeWord w = .ok i) :
    dispatchWord execute w s = execute i s := by
  simp [dispatchWord, h]

theorem dispatchWord_error {w : Word} {r : DecodeReject} {s : State} (h : decodeWord w = .error r) :
    dispatchWord execute w s = .next (raise .unimplementedOpcode w s) := by
  simp [dispatchWord, h]

/-- A fetch that succeeds dispatches the word at the pc on the advanced state (R60). -/
theorem runningCycle_fetched {s : State} (h : s.pc.toNat ≤ 4094) :
    runningCycle execute s = dispatchWord execute (nextWord s) (advance s) := by
  simp [runningCycle, fetchable, h, memRead2_next (show s.pc.toNat + 1 < 4096 by omega), nextWord]

/-- A fetch past the end takes OutOfBounds on the state as it is (R96). -/
theorem runningCycle_outOfBounds {s : State} (h : 4095 ≤ s.pc.toNat) :
    runningCycle execute s = .next (raise .outOfBounds s.pc s) := by
  have : ¬ s.pc.toNat ≤ 4094 := by omega
  simp [runningCycle, fetchable, this]

theorem cycle_running {s : State} (h : s.status = .running) :
    cycle execute s = runningCycle execute s := by
  simp [cycle, h]

theorem cycle_stopped {s : State} (h : s.status ≠ .running) : cycle execute s = .next s := by
  unfold cycle
  split <;> simp_all

/-! ### Placing an instruction -/

@[simp] theorem makeRunning_status (s : State) : (makeRunning s).status = .running := by
  unfold makeRunning
  split <;> simp [*]

@[simp] theorem makeRunning_mem (s : State) : (makeRunning s).mem = s.mem := by
  unfold makeRunning
  split <;> rfl

/-- What `readyToFetch` leaves is running, with a pc a fetch accepts. -/
theorem readyToFetch_ready (s : State) :
    (readyToFetch s).status = .running ∧ (readyToFetch s).pc.toNat ≤ 4094 := by
  unfold readyToFetch
  split <;> simp_all [fetchable]

@[simp] theorem readyToFetch_mem (s : State) : (readyToFetch s).mem = s.mem := by
  unfold readyToFetch
  split <;> simp

end Sys2Proof.Machine
end

