-- ==== Sys2Proof/Laws/PerInstr.lean ====
section
/-! SUPPORT. Statements made of every instruction, one lemma per constructor. -/

namespace Sys2Proof.Laws.EncodesOneRow

/-- The word an instruction encodes to selects its own row of the opcode table and no other
(30_encoding.md R50). -/
def Statement (i : Instr) : Prop :=
  (rowsOf (encodeWord i)).map OpcodeRow.mnemonic = [i.mnemonic]

theorem halt : Statement .halt := by unfold Statement; decide

theorem ret : Statement .ret := by unfold Statement; decide

theorem call (addr : Address) : Statement (.call addr) := by
  unfold Statement; revert addr; decide +kernel

theorem add (x y : RegIndex) : Statement (.add x y) := by
  unfold Statement; revert x y; decide +kernel

end Sys2Proof.Laws.EncodesOneRow
end

