-- ==== Sys2Proof/Laws/Step.lean ====
section
/-! SUPPORT. What a step can do, said once; and the small lemmas of repeated steps. -/

namespace Sys2Proof.Machine

/-- Everything a step that answers `t` can have done (40_execution_cycle.md R60, R68). -/
theorem step_cases {s t : State} (h : step s = .next t) :
    (s.status ≠ .running ∧ t = s) ∨
    (s.status = .running ∧ 4095 ≤ s.pc.toNat ∧ t = raise .outOfBounds s.pc s) ∨
    (s.status = .running ∧ s.pc.toNat ≤ 4094 ∧ decodeWord (nextWord s) =
        .error (.unimplementedOpcode (nextWord s)) ∧
      t = raise .unimplementedOpcode (nextWord s) (advance s)) ∨
    (s.status = .running ∧ s.pc.toNat ≤ 4094 ∧ ∃ i, decodeWord (nextWord s) = .ok i ∧
      exec i (advance s) = .next t) := by
  unfold step at h
  by_cases hs : s.status = .running
  · rw [cycle_running hs] at h
    rcases Nat.lt_or_ge 4094 s.pc.toNat with hp | hp
    · rw [runningCycle_outOfBounds hp] at h
      injection h with h
      exact .inr (.inl ⟨hs, hp, h.symm⟩)
    · rw [runningCycle_fetched hp] at h
      cases hd : decodeWord (nextWord s) with
      | error r =>
        rw [dispatchWord_error hd] at h
        injection h with h
        exact .inr (.inr (.inl ⟨hs, hp, by rw [decodeWord_error hd], h.symm⟩))
      | ok i =>
        rw [dispatchWord_ok hd] at h
        exact .inr (.inr (.inr ⟨hs, hp, i, rfl, h⟩))
  · rw [cycle_stopped hs] at h
    injection h with h
    exact .inl ⟨hs, h.symm⟩

/-- A step in a stopped state (R68). -/
theorem step_stopped {s : State} (h : s.status ≠ .running) : step s = .next s :=
  cycle_stopped h

theorem nextState_of_step {s t : State} (h : step s = .next t) : nextState s = t := by
  simp [nextState, h]

/-- The next step after placing a word fetches exactly it. -/
theorem step_withFetchWord {s : State} (h : Memory.wf s.mem = true) (nbits w : Nat) :
    step (s.withFetchWord nbits w) =
      dispatchWord exec (BitVec.ofNat 16 (w % 2 ^ nbits)) (advance (s.withFetchWord nbits w)) := by
  obtain ⟨hrun, hpc⟩ := readyToFetch_ready s
  have hrun' : (s.withFetchWord nbits w).status = .running := hrun
  have hpc' : (s.withFetchWord nbits w).pc.toNat ≤ 4094 := hpc
  unfold step
  rw [cycle_running hrun', runningCycle_fetched hpc']
  congr 1
  have hm : Memory.wf (readyToFetch s).mem = true := by simpa using h
  have hw : Memory.wf (Memory.writeByte (readyToFetch s).mem (readyToFetch s).pc.toNat
      (highByte (BitVec.ofNat 16 (w % 2 ^ nbits)))) = true := Memory.wf_writeByte hm (by omega) _
  simp only [nextWord, wordAt, State.withFetchWord, placeAtPc]
  rw [Memory.readByte_writeByte hw, Memory.readByte_writeByte hw, Memory.readByte_writeByte hm]
  simp

@[simp] theorem afterSteps_zero (s : State) : afterSteps 0 s = s := rfl

@[simp] theorem afterSteps_succ (n : Nat) (s : State) :
    afterSteps (n + 1) s = afterSteps n (nextState s) := rfl

theorem afterSteps_add (m n : Nat) (s : State) :
    afterSteps (m + n) s = afterSteps n (afterSteps m s) := by
  induction m generalizing s with
  | zero => simp
  | succ m ih => rw [Nat.add_right_comm]; exact ih (nextState s)

/-- Steps counted from the other end: the last one taken on its own. -/
theorem afterSteps_succ_last (n : Nat) (s : State) :
    afterSteps (n + 1) s = nextState (afterSteps n s) :=
  afterSteps_add n 1 s

@[simp] theorem callsIn_zero (s : State) : callsIn 0 s = 0 := rfl

theorem callsIn_succ (n : Nat) (s : State) :
    callsIn (n + 1) s = callsIn n s + if atCall (afterSteps n s) then 1 else 0 := by
  simp [callsIn, List.range_succ]

end Sys2Proof.Machine
end

