-- ==== Sys2Proof/Tests/Slice0.lean ====
section
/-! SUPPORT. Tests: words and vectors of the spec (95_test_vectors.md, by their ids there), the
ill-formed terms the checks refuse, and for each obligation with hypotheses a witness that meets them. -/

namespace Sys2Proof.Tests

open Sys2Proof Sys2Proof.Machine

/-- The reset state with a pc and the word there. -/
def fetching (pc w : Word) : State := { State.reset with pc := pc }.withFetchWord 16 w.toNat

/-- `fetching`, with `n` call-stack entries in use, all equal to `entry`. -/
def deep (pc w : Word) (n : Fin 17) (entry : Word) : State :=
  { fetching pc w with sp := n, stack := Vector.replicate 16 entry }

/-- The state a step or a meaning leads to, for tests. -/
def landed (o : Host.Outcome State Fault Refusal) : Option State :=
  match o with
  | .next s => some s
  | .fault _ => none
  | .refused _ => none

/-! ### Decoding: words written out from the encodings of 30_encoding.md R46 and R50 -/

theorem test_decode_halt : decodeWord 0b0000000000000000 = .ok .halt := by decide

theorem test_decode_ret : decodeWord 0b0000000011101110 = .ok .ret := by decide

theorem test_decode_call : decodeWord 0b0010000100000000 = .ok (.call 0b000100000000) := by decide

theorem test_decode_call_top : decodeWord 0b0010111111111111 = .ok (.call 0xFFF) := by decide

theorem test_decode_add : decodeWord 0b1000101010110100 = .ok (.add 10 11) := by decide

theorem test_decode_bytes_high_first :
    decodeBytes [0x21, 0x00, 0xEE] = .ok (.call 0x100, [0xEE]) ∧
    decodeBytes [0xEE] = .error .truncated := by decide

/-- X4, X6, X7, X11: near misses are rejected under their word. -/
theorem test_decode_rejects :
    decodeWord 0x00E0 = .error (.unimplementedOpcode 0x00E0) ∧
    decodeWord 0x01EE = .error (.unimplementedOpcode 0x01EE) ∧
    decodeWord 0x1FFF = .error (.unimplementedOpcode 0x1FFF) ∧
    decodeWord 0x8015 = .error (.unimplementedOpcode 0x8015) := by decide

/-! ### The checks of WellFormed.lean -/

/-- An image one byte too long, and one that just fits. -/
theorem test_image_check :
    imageFits (List.replicate 4097 0) = false ∧ imageFits (List.replicate 4096 0) = true := by
  simp only [imageFits, List.length_replicate]; decide

/-- A stack load one entry too deep, and one that just fits. -/
theorem test_stack_load_check :
    stackLoadFits (List.replicate 17 0) = false ∧ stackLoadFits (List.replicate 16 0) = true := by
  simp only [stackLoadFits, List.length_replicate]; decide

/-- The greatest operands are well formed; the types have no greater ones. -/
theorem test_instr_check :
    Instr.wellFormed (.call 0xFFF) = true ∧ Instr.wellFormed (.add 15 15) = true := by decide

/-! ### One step each -/

/-- H2: HALT fetched at 4094 leaves pc 4096 and no fault. -/
theorem test_halt_at_the_end :
    (landed (step (fetching 4094 0x0000))).map (fun t => (t.status, t.pc, t.faultKind))
      = some (.halted, 4096, .noFault) := by decide

/-- T4: RET with a full stack takes the top entry. -/
theorem test_ret_from_full :
    (landed (step (deep 0 0x00EE 16 0x0040))).map (fun t => (t.sp, t.pc)) = some (15, 0x0040) := by
  decide

/-- T6: the whole 16-bit entry goes to the pc. -/
theorem test_ret_is_not_masked :
    (landed (step (deep 0 0x00EE 1 0xFFFF))).map (fun t => (t.sp, t.pc)) = some (0, 0xFFFF) := by
  decide

/-- C2: the entry at sp gets the address after the CALL. -/
theorem test_call_pushes :
    (landed (step (deep 0x0204 0x2ABC 3 7))).map (fun t => (t.sp, t.pc, t.stack[3], t.stack[2]))
      = some (4, 0x0ABC, 0x0206, 7) := by decide

/-- C4: the seventeenth CALL faults with the pc advanced. -/
theorem test_call_overflows :
    (landed (step (deep 0 0x2010 16 7))).map (fun t => (t.sp, t.pc, t.faultKind, t.faultInfo))
      = some (16, 2, .stackOverflow, 16) := by decide

/-- A8: 200 + 100. -/
theorem test_add_carries :
    (landed (step (writeReg 1 0x64 (writeReg 0 0xC8 (fetching 0 0x8014))))).map
      (fun t => (t.v[0], t.v[1], t.v[15])) = some (0x2C, 0x64, 1) := by decide

/-- A15: with x = 15 the sum 0xFF is lost. -/
theorem test_add_into_flag :
    (landed (step (writeReg 1 0x01 (writeReg 15 0xFE (fetching 0 0x8F14))))).map
      (fun t => (t.v[1], t.v[15])) = some (1, 0) := by decide

/-- F8: no wrap of the pc in the bound check. -/
theorem test_fetch_at_ffff :
    (landed (step { State.reset with pc := 0xFFFF })).map (fun t => (t.pc, t.faultKind, t.faultInfo))
      = some (0xFFFF, .outOfBounds, 0xFFFF) := by decide

/-- F4: an odd pc fetches like an even one (bytes 1 and 2 of 21 00 EE are RET). -/
theorem test_odd_fetch :
    (landed (step { State.reset with pc := 1, mem := [(0, 0x21), (2, 0xEE)] })).map
      (fun t => (t.pc, t.faultKind)) = some (3, .stackUnderflow) := by decide

/-- Log entry 19: an image that runs past 4095 on the port is refused, not wrapped to address 0. -/
theorem test_port_image_past_the_end :
    portLoadImage 4095 [0x80, 0x14] Session.start = .refused (.imageTooLong 4097) := rfl

/-! ### Witnesses: states and operands that meet the hypotheses of the obligations -/

theorem witness_ClassDispatch :
    (0x00EF : Word).toNat / 4096 = 0 ∧ (0x2FFF : Word).toNat / 4096 = 2 ∧
    (0x8FF4 : Word).toNat / 4096 = 8 ∧ (0x8FF5 : Word).toNat / 4096 = 8 ∧
    (0xF000 : Word).toNat / 4096 ≠ 0 ∧ (0xF000 : Word).toNat / 4096 ≠ 2 ∧
    (0xF000 : Word).toNat / 4096 ≠ 8 := by decide

theorem witness_DispatchAgreesWithMasks :
    decodeWord 0x2FFF = .ok (.call 0xFFF) ∧
    decodeWord 0x3000 = .error (.unimplementedOpcode 0x3000) := by decide

theorem witness_DecodeAndEncodeAgree :
    Instr.wellFormed (.add 15 0) = true ∧ decodeWord 0x8F04 = .ok (.add 15 0) := by decide

theorem witness_StepRunsTheDecodedInstruction :
    (fetching 4094 0x8FF4).status = .running ∧ (fetching 4094 0x8FF4).pc.toNat ≤ 4094 ∧
    Instr.wellFormed (.add 15 15) = true ∧
    decodeBytes [Memory.readByte (fetching 4094 0x8FF4).mem 4094,
      Memory.readByte (fetching 4094 0x8FF4).mem 4095] = .ok (.add 15 15, []) := by decide

/-- Also for FetchPastTheEndFaults (first clause): the bound's two sides. -/
theorem witness_StepFollowsTheCycle :
    (fetching 4094 0x2FFF).status = .running ∧ (fetching 4094 0x2FFF).pc.toNat ≤ 4094 ∧
    ({ State.reset with pc := 4095 } : State).status = .running ∧
    4095 ≤ ({ State.reset with pc := 4095 } : State).pc.toNat := by decide

theorem witness_StoppedMachineStays :
    (setStatus .halted State.reset).status ≠ .running ∧
    (raise .outOfBounds 0xFFFF State.reset).status ≠ .running := by decide

theorem witness_FetchedWordIsBigEndian : 4094 + 1 ≤ 4095 := by decide

/-- Also for HaltIsTerminal. -/
theorem witness_HaltStopsTheMachine :
    State.reset.status = .running ∧ State.reset.pc.toNat ≤ 4094 ∧ nextWord State.reset = 0x0000 ∧
    (fetching 4094 0x0000).pc.toNat ≤ 4094 ∧ nextWord (fetching 4094 0x0000) = 0x0000 := by decide

theorem witness_RetPopsTheEntry :
    State.reset.sp.val = 0 ∧ 0 < (setSp 1 State.reset).sp.val ∧ 0 < (setSp 16 State.reset).sp.val := by
  decide

theorem witness_CallPushesTheReturnAddress :
    16 ≤ (setSp 16 State.reset).sp.val ∧ (setSp 15 State.reset).sp.val < 16 ∧
    State.reset.sp.val < 16 := by decide

theorem witness_ArithmeticLaws :
    (14 : RegIndex) ≠ 15 ∧ (fetching 4094 0).pc.toNat ≤ 4094 ∧ (setSp 15 State.reset).sp.val < 16 ∧
    0 < (setSp 1 State.reset).sp.val := by decide

theorem witness_AddIntoTheFlagKeepsTheCarry : (14 : RegIndex) ≠ 15 := by decide

theorem witness_AddReadsBeforeItWrites : (0 : RegIndex) ≠ 15 ∧ (14 : RegIndex) ≠ 15 := by decide

theorem witness_FlagIsNeverStale : (0 : RegIndex) ≠ 15 ∧ (14 : RegIndex) ≠ 15 := by decide

/-- Each instruction answers, RET and CALL on both sides of their bound. -/
theorem witness_ControlFlowFrame :
    landed (exec .halt State.reset) ≠ none ∧ landed (exec .ret State.reset) ≠ none ∧
    landed (exec .ret (setSp 16 State.reset)) ≠ none ∧
    landed (exec (.call 0xFFF) (setSp 15 State.reset)) ≠ none ∧
    landed (exec (.call 0xFFF) (setSp 16 State.reset)) ≠ none := by decide

theorem witness_AddFrame :
    landed (exec (.add 1 2) State.reset) ≠ none ∧ (0 : RegIndex) ≠ 1 ∧ (0 : RegIndex) ≠ 15 := by decide

theorem witness_RegistersChangeOnlyByAdd :
    (landed (step (writeReg 0 0xFF (fetching 0 0x8004)))).map (readReg 15) = some 1 ∧
    readReg 15 (writeReg 0 0xFF (fetching 0 0x8004)) = 0 := by decide

/-- One step of each of the three kinds that goes on running. -/
theorem witness_PcMovesOnlyAsListed :
    (landed (step (fetching 4094 0x8014))).map State.status = some .running ∧
    (landed (step (fetching 4094 0x2FFF))).map State.status = some .running ∧
    (landed (step (deep 4094 0x00EE 16 5))).map State.status = some .running := by decide

theorem witness_FetchPastTheEndFaults :
    State.reset.faultKind = .noFault ∧
    (landed (step { State.reset with pc := 4095 })).map State.faultKind = some .outOfBounds := by decide

theorem witness_CallOnAFullStackFaults :
    (deep 4094 0x2FFF 16 0).status = .running ∧ (deep 4094 0x2FFF 16 0).pc.toNat ≤ 4094 ∧
    (nextWord (deep 4094 0x2FFF 16 0)).toNat / 4096 = 2 ∧ 16 ≤ (deep 4094 0x2FFF 16 0).sp.val := by
  decide

theorem witness_RetOnAnEmptyStackFaults :
    (fetching 4094 0x00EE).status = .running ∧ (fetching 4094 0x00EE).pc.toNat ≤ 4094 ∧
    nextWord (fetching 4094 0x00EE) = 0x00EE ∧ (fetching 4094 0x00EE).sp.val = 0 := by decide

theorem witness_UnlistedWordFaults :
    (fetching 4094 0x00EF).status = .running ∧ (fetching 4094 0x00EF).pc.toNat ≤ 4094 ∧
    rowsOf (nextWord (fetching 4094 0x00EF)) = [] ∧ rowsOf (nextWord (fetching 0 0xFFFF)) = [] := by
  decide

/-- Each of the four kinds is taken by some step. -/
theorem witness_FaultsArePrecise :
    (landed (step { State.reset with pc := 4095 })).map State.faultKind = some .outOfBounds ∧
    (landed (step (deep 0 0x2000 16 0))).map State.faultKind = some .stackOverflow ∧
    (landed (step (fetching 0 0x00EE))).map State.faultKind = some .stackUnderflow ∧
    (landed (step (fetching 0 0x8000))).map State.faultKind = some .unimplementedOpcode := by decide

theorem witness_StatusTransitions :
    landed (step State.reset) ≠ none ∧ State.reset.status = .running ∧
    landed (step (setStatus .halted State.reset)) ≠ none ∧
    (setStatus .halted State.reset).status ≠ .running := by decide

/-- An ADD at 0, then `CALL 0x002` at 2, which calls itself: 16 CALLs, then the 17th. -/
def addThenNest : State :=
  { State.reset with mem := [(0, 0x80), (1, 0x14), (2, 0x20), (3, 0x02)] }

theorem witness_StackBoundsAreFaults :
    addThenNest.status = .running ∧ addThenNest.sp.val = 0 ∧
    (∀ k ≤ 17, (afterSteps k addThenNest).pc.toNat ≤ 4094 ∧
      (atCall (afterSteps k addThenNest) = true ∨ atAdd (afterSteps k addThenNest) = true)) ∧
    callsIn 17 addThenNest = 16 ∧ atCall (afterSteps 17 addThenNest) = true := by decide

/-- The clauses of one step: a CALL on a full stack and a RET on an empty one. -/
theorem witness_StackBoundsAreFaults_oneStep :
    (deep 4094 0x2FFF 16 0).status = .running ∧ (deep 4094 0x2FFF 16 0).pc.toNat ≤ 4094 ∧
    atCall (deep 4094 0x2FFF 16 0) = true ∧ (deep 4094 0x2FFF 16 0).sp.val = 16 ∧
    (fetching 4094 0x00EE).status = .running ∧ (fetching 4094 0x00EE).pc.toNat ≤ 4094 ∧
    nextWord (fetching 4094 0x00EE) = 0x00EE ∧ (fetching 4094 0x00EE).sp.val = 0 := by decide

/-- S3: `CALL 0x010` at 0 and RET at 0x010. -/
def callThenRet : State := { State.reset with mem := [(0, 0x20), (1, 0x10), (0x11, 0xEE)] }

theorem witness_CallThenRetResumes :
    callThenRet.status = .running ∧ callThenRet.pc.toNat ≤ 4094 ∧ callThenRet.sp.val < 16 ∧
    decodeWord (nextWord callThenRet) = .ok (.call 0x010) ∧
    (∀ k < 2, 1 ≤ k → callThenRet.sp.val < (afterSteps k callThenRet).sp.val) ∧
    (afterSteps 1 callThenRet).status = .running ∧ (afterSteps 1 callThenRet).pc.toNat ≤ 4094 ∧
    decodeWord (nextWord (afterSteps 1 callThenRet)) = .ok .ret ∧
    (afterSteps 1 callThenRet).sp.val = callThenRet.sp.val + 1 := by decide

theorem witness_StepKeepsTheInvariant :
    (fetching 4094 0xFFFF).Inv ∧ landed (step (fetching 4094 0xFFFF)) ≠ none :=
  ⟨⟨by decide, by decide⟩, by decide⟩

theorem witness_StepKeepsThePcBounded :
    (fetching 4094 0x2FFF).PcBounded ∧ landed (step (fetching 4094 0x2FFF)) ≠ none :=
  ⟨⟨by decide, by decide⟩, by decide⟩

theorem witness_UnfetchedBytesHaveNoEffect :
    SameFetch State.reset { State.reset with mem := [(2, 0xFF)] } :=
  ⟨rfl, by decide, by decide⟩

/-- A session in each status. -/
theorem witness_StepTransaction :
    Session.start.machine.status = .running ∧ (setStatus .halted State.reset).status = .halted ∧
    (raise .outOfBounds 0xFFFF State.reset).status = .faulted := by decide

/-- Also for SeedRegisterSetsOne and SetPcAndLoadStack. -/
theorem witness_LoadImagePlacesTheBytes :
    Session.start.phase = .load ∧ ([0x80, 0x14] : List Byte).length ≤ 4096 ∧
    4096 < (List.replicate 4097 (0 : Byte)).length := by
  simp only [List.length_replicate]; decide

theorem witness_SeedRegisterSetsOne :
    Session.start.phase = .load ∧ (14 : RegIndex) ≠ 15 ∧ (0 : RegIndex) ≠ 14 := by decide

theorem witness_SetPcAndLoadStack :
    Session.start.phase = .load ∧ (List.replicate 16 (0xFFFF : Word)).length ≤ 16 ∧
    16 < (List.replicate 17 (0xFFFF : Word)).length := by decide

/-- A session after launch, writes, and Steps and Runs that answer. -/
theorem witness_WritesOnlyInTheLoadPhase :
    (⟨State.reset, .run⟩ : Session).phase = .run ∧ (Transaction.seedRegister 0 9).writes = true ∧
    (match transact .step Session.start with | .next _ => true | _ => false) = true ∧
    (match transact .run Session.start with | .next _ => true | _ => false) = true := by decide

/-- B2: an image and two seeds. -/
theorem witness_LaunchPremises :
    (∀ t ∈ [Transaction.loadImage [0x80, 0x14], .seedRegister 0 2, .seedRegister 1 3],
      t.writes = true) ∧
    (match transactAll [.loadImage [0x80, 0x14], .seedRegister 0 2, .seedRegister 1 3]
      Session.start with | .next _ => true | _ => false) = true := by decide

/-- The last register address of the port, and a state for each status and each fault kind. -/
theorem witness_PortReadsTheState :
    (15 : Address).toNat < 16 ∧ State.reset.status = .running ∧ State.reset.faultKind = .noFault ∧
    (setStatus .halted State.reset).status = .halted ∧
    (raise .outOfBounds 0xFFFF State.reset).status = .faulted ∧
    (raise .outOfBounds 0xFFFF State.reset).faultKind = .outOfBounds ∧
    (raise .stackOverflow 16 State.reset).faultKind = .stackOverflow ∧
    (raise .stackUnderflow 0 State.reset).faultKind = .stackUnderflow ∧
    (raise .unimplementedOpcode 1 State.reset).faultKind = .unimplementedOpcode := by decide

theorem witness_PortWritesLoadTheImage :
    State.reset.mem = [] ∧ ([0x80, 0x14] : List Byte).length ≤ 4096 := by decide

theorem witness_PortWritesOfRegisters :
    (15 : Address).toNat < 16 ∧ (16 : Word).toNat % 32 ≤ 16 ∧ 16 < (17 : Word).toNat % 32 ∧
    (match portWrite 3 4 7 ⟨State.reset, .run⟩ with | .next _ => true | _ => false) = true := by decide

end Sys2Proof.Tests
end

section
/-! SUPPORT. The statements about memory (20_memory.md). -/

namespace Sys2Proof.Machine

/-- Settles O12: the read answers `wordAt`, whose big-endian value is the number of R32. -/
theorem fetchedWordIsBigEndian : Obligations.FetchedWordIsBigEndian := by
  intro s a ha
  have hread : memRead2 a s = .next (wordAt s a) := memRead2_next (by omega)
  rw [hread, wordAt, bigEndian]

end Sys2Proof.Machine
end

section
/-! SUPPORT. The statements about encoding (30_encoding.md): the fields of a word as numbers, the
dispatch said once in those numbers, and the encoder as its inverse. -/

namespace Sys2Proof

/-! ### The fields of a word, by position (R46) -/

@[simp] theorem splitWord_c_toNat (w : Word) : (splitWord w).c.toNat = w.toNat / 4096 := by
  have hw : w.toNat < 65536 := w.isLt
  simp [splitWord, Nat.shiftRight_eq_div_pow]; omega

@[simp] theorem splitWord_x_toNat (w : Word) : (splitWord w).x.toNat = w.toNat / 256 % 16 := by
  simp [splitWord, Nat.shiftRight_eq_div_pow]

@[simp] theorem splitWord_y_toNat (w : Word) : (splitWord w).y.toNat = w.toNat / 16 % 16 := by
  simp [splitWord, Nat.shiftRight_eq_div_pow]

@[simp] theorem splitWord_d_toNat (w : Word) : (splitWord w).d.toNat = w.toNat % 16 := by
  simp [splitWord]

@[simp] theorem splitWord_addr_toNat (w : Word) : (splitWord w).addr.toNat = w.toNat % 4096 := by
  simp [splitWord]

/-- Settles O1: each field by its position; the sum of `addr` is then arithmetic. -/
theorem fieldsTileTheWord : Obligations.FieldsTileTheWord := by
  intro w
  refine ⟨splitWord_c_toNat w, splitWord_x_toNat w, splitWord_y_toNat w, splitWord_d_toNat w,
    splitWord_addr_toNat w, ?_⟩
  simp only [splitWord_x_toNat, splitWord_y_toNat, splitWord_d_toNat, splitWord_addr_toNat]
  omega

/-! ### The dispatch in numbers (R50, R51) -/

/-- A test on all four nibbles compares the whole word. -/
theorem splitWord_eq_iff (w : Word) (c x y d : Nibble) :
    ((splitWord w).c = c ∧ (splitWord w).x = x ∧ (splitWord w).y = y ∧ (splitWord w).d = d) ↔
      w.toNat = c.toNat * 4096 + x.toNat * 256 + y.toNat * 16 + d.toNat := by
  simp only [BitVec.toNat_eq, splitWord_c_toNat, splitWord_x_toNat, splitWord_y_toNat,
    splitWord_d_toNat]
  omega

theorem splitWord_addr (w : Word) : (splitWord w).addr = BitVec.ofNat 12 (w.toNat % 4096) :=
  BitVec.eq_of_toNat_eq (by simp)

theorem splitWord_x_toFin (w : Word) :
    (splitWord w).x.toFin = Fin.ofNat 16 (w.toNat / 256 % 16) :=
  Fin.ext (by simp)

theorem splitWord_y_toFin (w : Word) :
    (splitWord w).y.toFin = Fin.ofNat 16 (w.toNat / 16 % 16) :=
  Fin.ext (by simp)

/-- The dispatch on the word's number, the rows in the order of R50. -/
theorem selectRow_splitWord (w : Word) :
    selectRow (splitWord w) =
      if w = 0x0000 then some .halt
      else if w = 0x00EE then some .ret
      else if w.toNat / 4096 = 2 then some (.call (BitVec.ofNat 12 (w.toNat % 4096)))
      else if w.toNat / 4096 = 8 ∧ w.toNat % 16 = 4 then
        some (.add (Fin.ofNat 16 (w.toNat / 256 % 16)) (Fin.ofNat 16 (w.toNat / 16 % 16)))
      else none := by
  have hhalt : ((splitWord w).c = 0x0 ∧ (splitWord w).x = 0x0 ∧ (splitWord w).y = 0x0 ∧
      (splitWord w).d = 0x0) ↔ w = 0x0000 := by rw [splitWord_eq_iff, BitVec.toNat_eq]; rfl
  have hret : ((splitWord w).c = 0x0 ∧ (splitWord w).x = 0x0 ∧ (splitWord w).y = 0xE ∧
      (splitWord w).d = 0xE) ↔ w = 0x00EE := by rw [splitWord_eq_iff, BitVec.toNat_eq]; rfl
  have hcall : (splitWord w).c = 0x2 ↔ w.toNat / 4096 = 2 := by
    rw [BitVec.toNat_eq, splitWord_c_toNat]; rfl
  have hadd : ((splitWord w).c = 0x8 ∧ (splitWord w).d = 0x4) ↔
      (w.toNat / 4096 = 8 ∧ w.toNat % 16 = 4) := by
    rw [BitVec.toNat_eq, BitVec.toNat_eq, splitWord_c_toNat, splitWord_d_toNat]; rfl
  simp only [selectRow, hhalt, hret, hcall, hadd, splitWord_addr, splitWord_x_toFin,
    splitWord_y_toFin]

/-- The whole decoder on the word's number: a word of no row is rejected with itself (R52). -/
theorem decodeWord_eq (w : Word) :
    decodeWord w =
      if w = 0x0000 then .ok .halt
      else if w = 0x00EE then .ok .ret
      else if w.toNat / 4096 = 2 then .ok (.call (BitVec.ofNat 12 (w.toNat % 4096)))
      else if w.toNat / 4096 = 8 ∧ w.toNat % 16 = 4 then
        .ok (.add (Fin.ofNat 16 (w.toNat / 256 % 16)) (Fin.ofNat 16 (w.toNat / 16 % 16)))
      else .error (.unimplementedOpcode w) := by
  rw [decodeWord, selectRow_splitWord]
  split_ifs <;> rfl

/-- Settles O3: HALT and RET lie in class 0, so that a word of another class passes their rows. -/
theorem classDispatch : Obligations.ClassDispatch := by
  intro w
  have hrow (hc : w.toNat / 4096 ≠ 0) : w ≠ 0x0000 ∧ w ≠ 0x00EE := by
    constructor <;> rintro rfl <;> exact hc rfl
  rw [decodeWord_eq]
  refine ⟨fun h0 => ?_, fun h2 => ?_, fun h8 => ?_, fun h0 h2 h8 => ?_⟩
  · simp [h0]
  · obtain ⟨hhalt, hret⟩ := hrow (by omega)
    rw [if_neg hhalt, if_neg hret, if_pos h2]
  · obtain ⟨hhalt, hret⟩ := hrow (by omega)
    rw [if_neg hhalt, if_neg hret, if_neg (by omega)]
    simp only [h8, true_and]
  · obtain ⟨hhalt, hret⟩ := hrow h0
    rw [if_neg hhalt, if_neg hret, if_neg h2, if_neg (fun h => h8 h.1)]

/-! ### Encoding inverts decoding (R56) -/

@[simp] theorem encodeWord_call_toNat (addr : Address) :
    (encodeWord (.call addr)).toNat = 0x2000 + addr.toNat := by
  simp [encodeWord]; omega

@[simp] theorem encodeWord_add_toNat (x y : RegIndex) :
    (encodeWord (.add x y)).toNat = 0x8004 + x.val * 256 + y.val * 16 := by
  simp [encodeWord]; omega

/-- The word of each instruction decodes to it: each constructor's word lies in its own class. -/
theorem decodeWord_encodeWord (i : Instr) : decodeWord (encodeWord i) = .ok i := by
  cases i with
  | halt => rfl
  | ret => rfl
  | call addr =>
    obtain ⟨-, hcall, -, -⟩ := classDispatch (encodeWord (.call addr))
    rw [hcall (by simp; omega)]
    congr 2
    apply BitVec.eq_of_toNat_eq
    simp; omega
  | add x y =>
    obtain ⟨-, -, hadd, -⟩ := classDispatch (encodeWord (.add x y))
    rw [hadd (by simp; omega), if_pos (by simp; omega)]
    congr 2 <;> apply Fin.ext <;> simp <;> omega

/-- An instruction word has one spelling: what it decodes to encodes to it again. -/
theorem encodeWord_of_decodeWord {w : Word} {i : Instr} (h : decodeWord w = .ok i) :
    encodeWord i = w := by
  rw [decodeWord_eq] at h
  apply BitVec.eq_of_toNat_eq
  split_ifs at h with hhalt hret hcall hadd <;> cases h
  · rw [hhalt]; rfl
  · rw [hret]; rfl
  · simp; omega
  · simp; omega

/-- The bytes of an instruction are read as it, whatever follows them. -/
theorem decodeBytes_encode_append (i : Instr) (rest : List Byte) :
    decodeBytes (encode i ++ rest) = .ok (i, rest) := by
  simp [encode, decodeBytes, decodeWord_encodeWord]

/-- Settles O6: the two directions of the inverse, and the worked encodings by computation. -/
theorem decodeAndEncodeAgree : Obligations.DecodeAndEncodeAgree :=
  ⟨fun i rest _ => ⟨decodeWord_encodeWord i, decodeBytes_encode_append i rest⟩,
    fun _ _ => encodeWord_of_decodeWord, by decide⟩

end Sys2Proof
end

section
/-! SUPPORT. The statements about the step (40_execution_cycle.md): the two ways a running step goes,
and the dispatch of the fetched word on its number. -/

namespace Sys2Proof.Machine

/-! ### A running step: fetched, or past the end (R60) -/

theorem step_outOfBounds {s : State} (hrun : s.status = .running) (hpc : 4095 ≤ s.pc.toNat) :
    step s = .next (raise .outOfBounds s.pc s) :=
  (cycle_running hrun).trans (runningCycle_outOfBounds hpc)

theorem step_fetched {s : State} (hrun : s.status = .running) (hpc : s.pc.toNat ≤ 4094) :
    step s = dispatchWord exec (nextWord s) (advance s) :=
  (cycle_running hrun).trans (runningCycle_fetched hpc)

theorem nextWord_toNat (s : State) :
    (nextWord s).toNat = (Memory.readByte s.mem s.pc.toNat).toNat * 256
      + (Memory.readByte s.mem (s.pc.toNat + 1)).toNat :=
  bigEndian_toNat _ _

/-! ### The dispatch in numbers -/

/-- The dispatch on the word's number, the rows in the order of R50; a word of no row is raised with
itself (R99). -/
theorem dispatchWord_eq (execute : Instr → State → Host.Outcome State Fault Refusal) (w : Word)
    (s : State) :
    dispatchWord execute w s =
      if w = 0x0000 then execute .halt s
      else if w = 0x00EE then execute .ret s
      else if w.toNat / 4096 = 2 then execute (.call (BitVec.ofNat 12 (w.toNat % 4096))) s
      else if w.toNat / 4096 = 8 ∧ w.toNat % 16 = 4 then
        execute (.add (Fin.ofNat 16 (w.toNat / 256 % 16)) (Fin.ofNat 16 (w.toNat / 16 % 16))) s
      else .next (raise .unimplementedOpcode w s) := by
  rw [dispatchWord, decodeWord_eq]
  split_ifs <;> rfl

/-- Settles O9: past the end by the bounds check; else the dispatch of the fetched word, where the
tests of all four nibbles are those for the words of HALT and RET. -/
theorem stepFollowsTheCycle : Obligations.StepFollowsTheCycle := by
  intro s hrun
  refine ⟨step_outOfBounds hrun, fun hpc word hword => ?_⟩
  obtain rfl : word = (nextWord s).toNat := hword.trans (nextWord_toNat s).symm
  have hhalt : ((nextWord s).toNat / 4096 = 0 ∧ (nextWord s).toNat / 256 % 16 = 0 ∧
      (nextWord s).toNat / 16 % 16 = 0 ∧ (nextWord s).toNat % 16 = 0) ↔ nextWord s = 0x0000 := by
    bv_omega
  have hret : ((nextWord s).toNat / 4096 = 0 ∧ (nextWord s).toNat / 256 % 16 = 0 ∧
      (nextWord s).toNat / 16 % 16 = 0xE ∧ (nextWord s).toNat % 16 = 0xE) ↔
      nextWord s = 0x00EE := by
    bv_omega
  rw [step_fetched hrun hpc, dispatchWord_eq]
  simp only [hhalt, hret, BitVec.ofNat_toNat, BitVec.setWidth_eq]
  rfl

end Sys2Proof.Machine
end

section
/-! SUPPORT. The statements about control flow (41_control_flow.md): which words are read as which
instruction, what each of HALT, RET and CALL answers, and the depth of the stack over CALLs and ADDs. -/

namespace Sys2Proof

/-- The words of an instruction: its own encoding and no other (R56). -/
theorem decodeWord_eq_ok_iff {w : Word} {i : Instr} : decodeWord w = .ok i ↔ w = encodeWord i :=
  ⟨fun h => (encodeWord_of_decodeWord h).symm, fun h => h ▸ decodeWord_encodeWord i⟩

end Sys2Proof

namespace Sys2Proof.Machine

/-- A running step that fetches the word of an instruction is its meaning on the advanced state. -/
theorem step_decoded {s : State} {i : Instr} (hrun : s.status = .running) (hpc : s.pc.toNat ≤ 4094)
    (hi : decodeWord (nextWord s) = .ok i) : step s = exec i (advance s) :=
  (step_fetched hrun hpc).trans (dispatchWord_ok hi)

/-! ### What the three instructions answer (R75 to R77) -/

theorem exec_halt (s : State) : exec .halt s = .next (setStatus .halted s) := rfl

theorem exec_ret_of_empty {s : State} (h : s.sp.val = 0) :
    exec .ret s = .next (raise .stackUnderflow 0 s) := by
  obtain ⟨-, hret⟩ := (execRet_cases s).resolve_left (fun ⟨hpos, _⟩ => hpos.ne' h)
  have hdepth : stackDepthWord s = 0 := by simp [stackDepthWord, h]
  exact hdepth ▸ hret

theorem exec_ret_of_pos {s : State} (h : 0 < s.sp.val) :
    exec .ret s = .next (setPc s.stack[s.sp.val - 1] (setSp ⟨s.sp.val - 1, by omega⟩ s)) := by
  obtain ⟨_, hret⟩ := (execRet_cases s).resolve_right (fun ⟨hempty, _⟩ => h.ne' hempty)
  exact hret

theorem exec_call_of_full {s : State} (addr : Address) (h : 16 ≤ s.sp.val) :
    exec (.call addr) s = .next (raise .stackOverflow 16 s) := by
  obtain ⟨hsp, hcall⟩ := (execCall_cases addr s).resolve_left (fun ⟨hlt, _⟩ => h.not_gt hlt)
  have hdepth : stackDepthWord s = 16 := by simp [stackDepthWord, hsp]
  exact hdepth ▸ hcall

theorem exec_call_of_lt {s : State} (addr : Address) (h : s.sp.val < 16) :
    exec (.call addr) s = .next (setPc (callTarget addr)
      (setSp ⟨s.sp.val + 1, by omega⟩ (writeEntry ⟨s.sp.val, h⟩ s.pc s))) := by
  obtain ⟨_, hcall⟩ := (execCall_cases addr s).resolve_right (fun ⟨hfull, _⟩ => h.ne hfull)
  exact hcall

/-- A number below the bound is not reduced. -/
theorem ofNat_eq_mk {n k : Nat} [NeZero n] (h : k < n) : Fin.ofNat n k = ⟨k, h⟩ :=
  Fin.ext (Nat.mod_eq_of_lt h)

/-- Settles O13: HALT writes the status alone, and the fetch before it advances the pc without a
wrap. -/
theorem haltStopsTheMachine : Obligations.HaltStopsTheMachine := by
  refine ⟨fun _ => decodeWord_eq_ok_iff, exec_halt, fun s hrun hpc hword => ?_⟩
  have hdecode : decodeWord (nextWord s) = .ok .halt := decodeWord_eq_ok_iff.2 hword
  exact ⟨setStatus .halted (advance s), step_decoded hrun hpc hdecode, rfl, advance_pc_toNat s hpc⟩

/-- Settles O14: the two answers of RET, where an index from 0 to 15 is its own remainder. -/
theorem retPopsTheEntry : Obligations.RetPopsTheEntry := by
  refine ⟨fun _ => decodeWord_eq_ok_iff, fun _ hempty => exec_ret_of_empty hempty, fun s hpos => ?_⟩
  rw [exec_ret_of_pos hpos, ofNat_eq_mk (show s.sp.val - 1 < 17 by omega)]
  simp only [ofNat_eq_mk (show s.sp.val - 1 < 16 by omega)]
  rfl

/-- Settles O15: the two answers of CALL, where a depth below 16 is its own remainder. -/
theorem callPushesTheReturnAddress : Obligations.CallPushesTheReturnAddress := by
  refine ⟨fun w addr => ?_, fun s addr hfull => exec_call_of_full addr hfull, fun s addr hlt => ?_⟩
  · rw [decodeWord_eq_ok_iff, BitVec.toNat_eq, encodeWord_call_toNat]
  · rw [exec_call_of_lt addr hlt, ofNat_eq_mk (show s.sp.val + 1 < 17 by omega)]
    simp only [ofNat_eq_mk hlt, BitVec.ofNat_toNat]
    rfl

/-! ### The depth of the stack, one step at a time -/

section Depth

variable {s : State}

theorem decodeWord_of_atCall (h : atCall s = true) :
    ∃ addr, decodeWord (nextWord s) = .ok (.call addr) := by
  obtain ⟨-, hcall, -, -⟩ := classDispatch (nextWord s)
  exact ⟨_, hcall (of_decide_eq_true h)⟩

theorem decodeWord_of_atAdd (h : atAdd s = true) :
    ∃ x y, decodeWord (nextWord s) = .ok (.add x y) := by
  obtain ⟨hclass, hd⟩ : (nextWord s).toNat / 4096 = 8 ∧ (nextWord s).toNat % 16 = 4 := by
    simpa [atAdd] using h
  obtain ⟨-, -, hadd, -⟩ := classDispatch (nextWord s)
  exact ⟨_, _, (hadd hclass).trans (if_pos hd)⟩

theorem atCall_eq_false_of_atAdd (h : atAdd s = true) : atCall s = false := by
  simp only [atAdd, atCall, Bool.and_eq_true, decide_eq_true_eq, decide_eq_false_iff_not] at h ⊢
  omega

/-- A CALL fetched on a full stack (R77, R80). -/
theorem nextState_call_of_full (hrun : s.status = .running) (hpc : s.pc.toNat ≤ 4094)
    (hcall : atCall s = true) (hfull : s.sp.val = 16) :
    nextState s = raise .stackOverflow 16 (advance s) := by
  obtain ⟨addr, hdecode⟩ := decodeWord_of_atCall hcall
  exact nextState_of_step ((step_decoded hrun hpc hdecode).trans (exec_call_of_full addr hfull.ge))

/-- A RET fetched with an empty stack (R76, R80). -/
theorem nextState_ret_of_empty (hrun : s.status = .running) (hpc : s.pc.toNat ≤ 4094)
    (hret : nextWord s = 0x00EE) (hempty : s.sp.val = 0) :
    nextState s = raise .stackUnderflow 0 (advance s) := by
  have hdecode : decodeWord (nextWord s) = .ok .ret := decodeWord_eq_ok_iff.2 hret
  exact nextState_of_step ((step_decoded hrun hpc hdecode).trans (exec_ret_of_empty hempty))

/-- A CALL with an entry free, or an ADD: the machine runs on, and only the CALL counts in `sp`. -/
theorem nextState_callOrAdd (hrun : s.status = .running) (hpc : s.pc.toNat ≤ 4094)
    (hword : atCall s = true ∨ atAdd s = true) (hfree : atCall s = true → s.sp.val < 16) :
    (nextState s).status = .running ∧
      (nextState s).sp.val = s.sp.val + if atCall s then 1 else 0 := by
  rcases hword with hcall | hadd
  · obtain ⟨addr, hdecode⟩ := decodeWord_of_atCall hcall
    have hstep := (step_decoded hrun hpc hdecode).trans
      (exec_call_of_lt (s := advance s) addr (hfree hcall))
    simp [nextState_of_step hstep, hrun, hcall]
  · obtain ⟨x, y, hdecode⟩ := decodeWord_of_atAdd hadd
    have hstep := step_decoded hrun hpc hdecode
    simp [nextState_of_step hstep, hrun, atCall_eq_false_of_atAdd hadd]

/-! ### The depth of the stack over many steps (R80) -/

theorem callsIn_mono (s : State) : Monotone (callsIn · s) :=
  monotone_nat_of_le_succ fun n => by rw [callsIn_succ]; omega

/-- Over CALLs and ADDs that the stack has room for, the machine runs on and `sp` counts the CALLs. -/
theorem afterSteps_callsAndAdds (hrun : s.status = .running) (n : Nat)
    (hfetch : ∀ k < n, (afterSteps k s).pc.toNat ≤ 4094 ∧
      (atCall (afterSteps k s) = true ∨ atAdd (afterSteps k s) = true))
    (hroom : s.sp.val + callsIn n s ≤ 16) :
    (afterSteps n s).status = .running ∧ (afterSteps n s).sp.val = s.sp.val + callsIn n s := by
  induction n with
  | zero => exact ⟨hrun, rfl⟩
  | succ n ih =>
    rw [callsIn_succ] at hroom ⊢
    obtain ⟨hrunning, hsp⟩ := ih (fun k hk => hfetch k (by omega)) (by omega)
    obtain ⟨hpc, hword⟩ := hfetch n (by omega)
    have hfree (hcall : atCall (afterSteps n s) = true) : (afterSteps n s).sp.val < 16 := by
      rw [if_pos hcall] at hroom; omega
    rw [afterSteps_succ_last, ← Nat.add_assoc, ← hsp]
    exact nextState_callOrAdd hrunning hpc hword hfree

end Depth

/-- Settles O32: `sp` counts the CALLs until it is 16, so that the next CALL finds the stack full. -/
theorem stackBoundsAreFaults : Obligations.StackBoundsAreFaults := by
  refine ⟨fun s n hrun hempty hfetch hcalls hnext => ?_, fun s hrun hpc hcall hfull => ?_,
    fun s hrun hpc hret hempty => ?_⟩
  · have hdepth (k : Nat) (hk : k ≤ n) :
        (afterSteps k s).sp.val = callsIn k s ∧ (afterSteps k s).status = .running := by
      have hle : callsIn k s ≤ callsIn n s := callsIn_mono s hk
      obtain ⟨hrunning, hsp⟩ :=
        afterSteps_callsAndAdds hrun k (fun j hj => hfetch j (by omega)) (by omega)
      exact ⟨by omega, hrunning⟩
    obtain ⟨hsp, hrunning⟩ := hdepth n le_rfl
    have hfull : (afterSteps n s).sp.val = 16 := hsp.trans hcalls
    rw [afterSteps_succ_last, nextState_call_of_full hrunning (hfetch n le_rfl).1 hnext hfull]
    exact ⟨hdepth, rfl, rfl, hfull⟩
  · rw [afterSteps_succ, nextState_call_of_full hrun hpc hcall hfull]
    exact ⟨rfl, rfl, hfull⟩
  · rw [afterSteps_succ, nextState_ret_of_empty hrun hpc hret hempty]
    exact ⟨rfl, rfl, hempty⟩

end Sys2Proof.Machine
end

section
/-! SUPPORT. The statements about arithmetic (42_arithmetic.md): the sum and the carry as the two parts
of the 9-bit sum, and what an ADD leaves in its destination and in the flag. -/

namespace Sys2Proof.Machine

/-! ### The 9-bit sum (R86): its low 8 bits are the result, its bit 8 is the carry -/

@[simp] theorem addResult_toNat (a b : Byte) :
    (addResult a b).toNat = (a.toNat + b.toNat) % 256 := by
  simp [addResult, addExact]

theorem addCarry_of_gt {a b : Byte} (h : a.toNat + b.toNat > 255) : addCarry a b = 1 := if_pos h

theorem addCarry_of_le {a b : Byte} (h : a.toNat + b.toNat ≤ 255) : addCarry a b = 0 :=
  if_neg h.not_gt

/-- The flag as a number: the sum is below 512, so that its quotient by 256 is bit 8. -/
@[simp] theorem addCarry_toNat (a b : Byte) : (addCarry a b).toNat = (a.toNat + b.toNat) / 256 := by
  rcases Nat.lt_or_ge 255 (a.toNat + b.toNat) with h | h
  · rw [addCarry_of_gt h]; bv_omega
  · rw [addCarry_of_le h]; bv_omega

theorem addCarry_eq_one_iff {a b : Byte} : addCarry a b = 1 ↔ a.toNat + b.toNat > 255 := by
  rw [BitVec.toNat_eq, addCarry_toNat]; bv_omega

theorem addCarry_eq_zero_iff {a b : Byte} : addCarry a b = 0 ↔ a.toNat + b.toNat ≤ 255 := by
  rw [BitVec.toNat_eq, addCarry_toNat]; bv_omega

/-! ### What an ADD answers (R85, R87) -/

/-- The state an ADD leaves: both sources are read in the state before it, and the flag is written
last. -/
def afterAdd (x y : RegIndex) (s : State) : State :=
  writeReg 15 (addCarry (readReg x s) (readReg y s))
    (writeReg x (addResult (readReg x s) (readReg y s)) s)

theorem exec_add (x y : RegIndex) (s : State) : exec (.add x y) s = .next (afterAdd x y s) := rfl

@[simp] theorem afterAdd_status (x y : RegIndex) (s : State) :
    (afterAdd x y s).status = s.status := rfl

/-- The flag holds the carry for every destination, 15 included. -/
theorem readReg_afterAdd_flag (x y : RegIndex) (s : State) :
    readReg 15 (afterAdd x y s) = addCarry (readReg x s) (readReg y s) :=
  readReg_writeReg_same _ _ _

/-- The destination holds the wrapped sum, where the flag write does not overwrite it. -/
theorem readReg_afterAdd_dest {x : RegIndex} (y : RegIndex) (s : State) (hx : x ≠ 15) :
    readReg x (afterAdd x y s) = addResult (readReg x s) (readReg y s) := by
  rw [afterAdd, readReg_writeReg_other _ _ hx, readReg_writeReg_same]

/-- Settles O16: the words are the encodings of ADD, and its answer is the two register writes. -/
theorem addWritesSumThenCarry : Obligations.AddWritesSumThenCarry := by
  refine ⟨fun w x y => ?_, fun s x y => exec_add x y s⟩
  rw [decodeWord_eq_ok_iff, BitVec.toNat_eq, encodeWord_add_toNat]

/-- Settles O17: the destination and the flag of an ADD are the two parts of the 9-bit sum, and the
bookkeeping counts stay within their widths. -/
theorem arithmeticLaws : Obligations.ArithmeticLaws := by
  refine ⟨fun s x y hx => ?_, fun s => advance_pc_toNat s, fun s addr hlt => ?_, fun s hpos => ?_⟩
  · have hdest : (afterAdd x y s).v[x] = addResult s.v[x] s.v[y] := readReg_afterAdd_dest y s hx
    have hflag : (afterAdd x y s).v[15] = addCarry s.v[x] s.v[y] := readReg_afterAdd_flag x y s
    refine ⟨afterAdd x y s, exec_add x y s, afterAdd_status x y s, ?_⟩
    rw [hdest, hflag]
    exact ⟨addResult_toNat _ _, addCarry_toNat _ _, addCarry_eq_one_iff, addCarry_eq_zero_iff⟩
  · exact ⟨_, exec_call_of_lt addr hlt, rfl⟩
  · exact ⟨_, exec_ret_of_pos hpos, Nat.sub_add_cancel hpos⟩

end Sys2Proof.Machine
end

section
/-! SUPPORT. The statements about exceptions (60_exceptions.md): when each fault is taken, and the
state it leaves. -/

namespace Sys2Proof

/-- An instruction's word selects the one row of its mnemonic (R50). -/
theorem rowsOf_encodeWord (i : Instr) :
    (rowsOf (encodeWord i)).map OpcodeRow.mnemonic = [i.mnemonic] := by
  cases i with
  | halt => exact Laws.EncodesOneRow.halt
  | ret => exact Laws.EncodesOneRow.ret
  | call addr => exact Laws.EncodesOneRow.call addr
  | add x y => exact Laws.EncodesOneRow.add x y

/-- A word of no row is rejected: were it read as an instruction, it would be that one's encoding and
select its row (R52). -/
theorem decodeWord_of_rowsOf_eq_nil {w : Word} (h : rowsOf w = []) :
    decodeWord w = .error (.unimplementedOpcode w) := by
  cases hdecode : decodeWord w with
  | error r => rw [decodeWord_error hdecode]
  | ok i =>
    have hrow := rowsOf_encodeWord i
    rw [encodeWord_of_decodeWord hdecode, h] at hrow
    cases hrow

end Sys2Proof

namespace Sys2Proof.Machine

/-- The fault kinds an instruction can leave: the one before it, or a fault of the call stack. -/
theorem exec_faultKind {i : Instr} {s t : State} (h : exec i s = .next t) :
    t.faultKind = s.faultKind ∨ t.faultKind = .stackOverflow ∨ t.faultKind = .stackUnderflow := by
  cases i with
  | halt =>
    cases (exec_halt s).symm.trans h
    exact .inl rfl
  | ret =>
    rcases execRet_cases s with ⟨_, hret⟩ | ⟨-, hret⟩
    · cases hret.symm.trans h
      exact .inl rfl
    · cases hret.symm.trans h
      exact .inr (.inr rfl)
  | call addr =>
    rcases execCall_cases addr s with ⟨_, hcall⟩ | ⟨-, hcall⟩
    · cases hcall.symm.trans h
      exact .inl rfl
    · cases hcall.symm.trans h
      exact .inr (.inl rfl)
  | add x y =>
    cases (exec_add x y s).symm.trans h
    exact .inl rfl

/-- Settles O26: past the end by the bounds check; conversely, a fetch that succeeds leads to
UnimplementedOpcode or to an instruction, and neither records OutOfBounds. -/
theorem fetchPastTheEndFaults : Obligations.FetchPastTheEndFaults := by
  refine ⟨fun s => step_outOfBounds, fun s t hrun hnone hstep hkind => ?_⟩
  rcases step_cases hstep with ⟨hstopped, -⟩ | ⟨-, hpc, -⟩ | ⟨-, -, -, rfl⟩ | ⟨-, -, i, -, hexec⟩
  · exact absurd hrun hstopped
  · exact hpc
  · cases hkind
  · have hkinds := exec_faultKind hexec
    simp [hkind, hnone] at hkinds

/-- Settles O27: class 2 is read as a CALL, which on a full stack raises StackOverflow. -/
theorem callOnAFullStackFaults : Obligations.CallOnAFullStackFaults := by
  intro s hrun hpc hclass hfull
  obtain ⟨addr, hdecode⟩ := decodeWord_of_atCall (decide_eq_true hclass)
  exact (step_decoded hrun hpc hdecode).trans (exec_call_of_full (s := advance s) addr hfull)

/-- Settles O28: the word is read as RET, which on an empty stack raises StackUnderflow. -/
theorem retOnAnEmptyStackFaults : Obligations.RetOnAnEmptyStackFaults := by
  intro s hrun hpc hword hempty
  have hdecode : decodeWord (nextWord s) = .ok .ret := decodeWord_eq_ok_iff.2 hword
  exact (step_decoded hrun hpc hdecode).trans (exec_ret_of_empty (s := advance s) hempty)

/-- Settles O29: a word of no row is rejected by the decoder, and the dispatch raises it. -/
theorem unlistedWordFaults : Obligations.UnlistedWordFaults := by
  intro s hrun hpc hrows
  exact (step_fetched hrun hpc).trans (dispatchWord_error (decodeWord_of_rowsOf_eq_nil hrows))

end Sys2Proof.Machine
end

section
/-! SUPPORT. The statements about reset and the host (70_reset_and_hazards.md): every step answers, so
that Step always has an outcome to report; and what an overwritten register no longer shows. -/

namespace Sys2Proof.Machine

/-! ### Step (R127) -/

/-- No instruction stops: a fault of the call stack is a next state too (60_exceptions.md R100). -/
theorem exec_answers (i : Instr) (s : State) : ∃ t, exec i s = .next t := by
  cases i with
  | halt => exact ⟨_, exec_halt s⟩
  | ret =>
    rcases execRet_cases s with ⟨_, hret⟩ | ⟨-, hret⟩
    · exact ⟨_, hret⟩
    · exact ⟨_, hret⟩
  | call addr =>
    rcases execCall_cases addr s with ⟨_, hcall⟩ | ⟨-, hcall⟩
    · exact ⟨_, hcall⟩
    · exact ⟨_, hcall⟩
  | add x y => exact ⟨_, exec_add x y s⟩

/-- A fetched word is an instruction, which answers, or is raised. -/
theorem dispatchWord_answers (w : Word) (s : State) : ∃ t, dispatchWord exec w s = .next t := by
  cases hdecode : decodeWord w with
  | ok i =>
    rw [dispatchWord_ok hdecode]
    exact exec_answers i s
  | error r => exact ⟨_, dispatchWord_error hdecode⟩

theorem step_answers (s : State) : ∃ t, step s = .next t := by
  by_cases hrun : s.status = .running
  · rcases Nat.lt_or_ge 4094 s.pc.toNat with hpc | hpc
    · exact ⟨_, step_outOfBounds hrun hpc⟩
    · rw [step_fetched hrun hpc]
      exact dispatchWord_answers _ _
  · exact ⟨s, step_stopped hrun⟩

/-- A Step moves to the state `step` answers, ends the load phase and reports the outcome. -/
theorem transact_step {x : Session} {u : State} (h : step x.machine = .next u) :
    transact .step x = .next (⟨u, .run⟩, .stepped (stepOutcome u)) := by
  simp only [transact, h]

theorem stepOutcome_running {s : State} (h : s.status = .running) : stepOutcome s = .continues := by
  simp only [stepOutcome, h]

theorem stepOutcome_halted {s : State} (h : s.status = .halted) : stepOutcome s = .halted := by
  simp only [stepOutcome, h]

theorem stepOutcome_faulted {s : State} (h : s.status = .faulted) :
    stepOutcome s = .fault s.faultKind s.faultInfo := by
  simp only [stepOutcome, h]

/-- Settles O40: a running machine moves to the state the step answers, a stopped one stays as it is,
and the outcome reported is that of the state reached. -/
theorem stepTransaction : Obligations.StepTransaction := by
  refine fun x => ⟨fun _ => ?_, fun hhalted => ?_, fun hfaulted => ?_⟩
  · obtain ⟨u, hstep⟩ := step_answers x.machine
    exact ⟨u, hstep, stepOutcome u, transact_step hstep, stepOutcome_running, stepOutcome_halted,
      stepOutcome_faulted⟩
  · have hstep : step x.machine = .next x.machine := step_stopped (by simp [hhalted])
    rw [transact_step hstep, stepOutcome_halted hhalted]
  · have hstep : step x.machine = .next x.machine := step_stopped (by simp [hfaulted])
    rw [transact_step hstep, stepOutcome_faulted hfaulted]

/-! ### SeedRegister (R124) -/

/-- Of two writes to one register the last stays. -/
@[simp] theorem writeReg_writeReg_same (i : RegIndex) (a b : Byte) (s : State) :
    writeReg i b (writeReg i a s) = writeReg i b s := by
  simp [writeReg]

theorem writeReg_comm {i r : RegIndex} (a b : Byte) (s : State) (h : i ≠ r) :
    writeReg i a (writeReg r b s) = writeReg r b (writeReg i a s) := by
  simp [writeReg, Vector.set_comm _ _ (Fin.val_ne_of_ne h)]

/-- The flag before an ADD that does not name it leaves no trace: the sources do not read it and the
carry overwrites it (10_state.md R12). -/
theorem afterAdd_writeReg_flag {p q : RegIndex} (b : Byte) (s : State) (hp : p ≠ 15) (hq : q ≠ 15) :
    afterAdd p q (writeReg 15 b s) = afterAdd p q s := by
  rw [afterAdd, readReg_writeReg_other s b hp, readReg_writeReg_other s b hq, writeReg_comm _ _ s hp,
    writeReg_writeReg_same, afterAdd]

theorem transact_seedRegister {x : Session} (i : RegIndex) (b : Byte) (h : x.phase = .load) :
    transact (.seedRegister i b) x = .next (⟨writeReg i b x.machine, .load⟩, .nothing) := by
  simp only [transact, loadOnly, h]

/-- Settles O42: a seed is one register write, and a seeded flag is overwritten by the ADD. -/
theorem seedRegisterSetsOne : Obligations.SeedRegisterSetsOne := by
  intro x i b hload
  refine ⟨_, transact_seedRegister i b hload, rfl, readReg_writeReg_same x.machine i b,
    fun r => readReg_writeReg_other x.machine b, rfl, ?_⟩
  rintro rfl p q hp hq
  rw [exec_add, exec_add, afterAdd_writeReg_flag b x.machine hp hq]

end Sys2Proof.Machine
end

section
/-! SUPPORT. The statements about the opcode table (30_encoding.md): the masks against the dispatch,
the words of each instruction, and their number. -/

namespace Sys2Proof

/-- Settles O2: the two bytes as one number split at the same places. -/
theorem fieldsOfTheTwoBytes : Obligations.FieldsOfTheTwoBytes := by
  intro hi lo
  simp only [splitWord_c_toNat, splitWord_x_toNat, splitWord_y_toNat, splitWord_d_toNat,
    bigEndian_toNat]
  omega

/-! ### The words of each instruction, as numbers (R50) -/

theorem decodeWord_eq_halt_iff {w : Word} : decodeWord w = .ok .halt ↔ w = 0x0000 :=
  decodeWord_eq_ok_iff

theorem decodeWord_eq_ret_iff {w : Word} : decodeWord w = .ok .ret ↔ w = 0x00EE :=
  decodeWord_eq_ok_iff

/-- Class 2 is CALL, whatever its address (R51). -/
theorem exists_decodeWord_eq_call_iff {w : Word} :
    (∃ addr, decodeWord w = .ok (.call addr)) ↔ w.toNat / 4096 = 2 := by
  constructor
  · rintro ⟨addr, hcall⟩
    rw [decodeWord_eq_ok_iff.1 hcall, encodeWord_call_toNat]
    omega
  · obtain ⟨-, hcall, -, -⟩ := classDispatch w
    exact fun hclass => ⟨_, hcall hclass⟩

/-- A class-8 word with 4 in its last nibble is an ADD (R51). -/
theorem exists_decodeWord_eq_add {w : Word} (hclass : w.toNat / 4096 = 8) (hd : w.toNat % 16 = 4) :
    ∃ x y, decodeWord w = .ok (.add x y) := by
  obtain ⟨-, -, hadd, -⟩ := classDispatch w
  exact ⟨_, _, (hadd hclass).trans (if_pos hd)⟩

/-! ### The masks (R50) -/

theorem selects_full_iff {m : String} {p w : Word} :
    OpcodeRow.selects ⟨m, 0xFFFF, p⟩ w = true ↔ w = p := by
  have hmask : w &&& 0xFFFF = w := BitVec.and_allOnes
  rw [OpcodeRow.selects, decide_eq_true_eq, hmask]

/-- The high nibble of a masked word is the masked high nibble. -/
theorem class_of_and_eq {w mask p : Word} (h : w &&& mask = p) (hmask : mask.toNat / 4096 = 15) :
    w.toNat / 4096 = p.toNat / 4096 := by
  have hw : w.toNat / 4096 < 2 ^ 4 := by omega
  calc w.toNat / 4096 = w.toNat / 4096 &&& 15 := by
        rw [Nat.and_two_pow_sub_one_eq_mod _ 4, Nat.mod_eq_of_lt hw]
    _ = (w.toNat &&& mask.toNat) / 4096 := by rw [← hmask, Nat.and_div_two_pow (n := 12)]
    _ = p.toNat / 4096 := by rw [← BitVec.toNat_and, h]

/-- The last nibble of a masked word is the masked last nibble. -/
theorem lastNibble_of_and_eq {w mask p : Word} (h : w &&& mask = p) (hmask : mask.toNat % 16 = 15) :
    w.toNat % 16 = p.toNat % 16 := by
  calc w.toNat % 16 = w.toNat % 16 &&& 15 := by
        rw [Nat.and_two_pow_sub_one_eq_mod _ 4, Nat.mod_mod]
    _ = (w.toNat &&& mask.toNat) % 16 := by rw [← hmask, Nat.and_mod_two_pow (n := 4)]
    _ = p.toNat % 16 := by rw [← BitVec.toNat_and, h]

/-- A word that selects a row of the table is an instruction. -/
theorem decodeWord_ok_of_selects {w : Word} {r : OpcodeRow} (hr : r ∈ opcodeTable)
    (h : r.selects w = true) : ∃ i, decodeWord w = .ok i := by
  simp only [opcodeTable, List.mem_cons, List.not_mem_nil, or_false] at hr
  rcases hr with rfl | rfl | rfl | rfl
  · exact ⟨.halt, decodeWord_eq_halt_iff.2 (selects_full_iff.1 h)⟩
  · exact ⟨.ret, decodeWord_eq_ret_iff.2 (selects_full_iff.1 h)⟩
  · have hclass := class_of_and_eq (of_decide_eq_true h) rfl
    obtain ⟨addr, hcall⟩ := exists_decodeWord_eq_call_iff.2 hclass
    exact ⟨_, hcall⟩
  · have hclass := class_of_and_eq (of_decide_eq_true h) rfl
    have hd := lastNibble_of_and_eq (of_decide_eq_true h) rfl
    obtain ⟨x, y, hadd⟩ := exists_decodeWord_eq_add hclass hd
    exact ⟨_, hadd⟩

/-- A word of no row is exactly one the decoder rejects (R52). -/
theorem rowsOf_eq_nil_iff {w : Word} :
    rowsOf w = [] ↔ decodeWord w = .error (.unimplementedOpcode w) := by
  refine ⟨decodeWord_of_rowsOf_eq_nil, fun herror => List.filter_eq_nil_iff.2 fun r hr hsel => ?_⟩
  obtain ⟨i, hok⟩ := decodeWord_ok_of_selects hr hsel
  cases herror.symm.trans hok

/-- Settles O4: an instruction's word selects the row of its mnemonic, a rejected word none. -/
theorem dispatchAgreesWithMasks : Obligations.DispatchAgreesWithMasks := by
  refine fun w => ⟨fun i hok => ?_, fun e herror => ?_⟩
  · have hrow := rowsOf_encodeWord i
    rw [encodeWord_of_decodeWord hok] at hrow
    exact List.map_eq_singleton_iff.1 hrow
  · obtain rfl := decodeWord_error herror
    exact ⟨rowsOf_eq_nil_iff.2 herror, rfl⟩

/-! ### Table words (R50, column "words matched") -/

/-- A table word of 16 bits is read as its number. -/
theorem decodeTableWord_isSome_iff {n : Nat} (h : n < 65536) :
    (decodeTableWord 16 n).isSome ↔ ∃ i, n = (encodeWord i).toNat := by
  have hpair (i : Instr) : n = (encodeWord i).toNat ↔ decodeWord (BitVec.ofNat 16 n) = .ok i := by
    rw [decodeWord_eq_ok_iff, BitVec.toNat_eq, BitVec.toNat_ofNat, Nat.mod_eq_of_lt h]
  simp only [hpair, decodeTableWord, decodeBytes, bigEndian_highByte_lowByte,
    Nat.mod_eq_of_lt (show n < 2 ^ 16 from h)]
  cases decodeWord (BitVec.ofNat 16 n) <;> simp

/-- The words matched by the four rows. -/
def instructionWords : Finset Nat :=
  {0x0000, 0x00EE} ∪ (Finset.Ico 0x2000 0x3000 ∪ (Finset.range 256).image (0x8004 + · * 16))

theorem mem_instructionWords_iff {n : Nat} :
    n ∈ instructionWords ↔ ∃ i, n = (encodeWord i).toNat := by
  simp only [instructionWords, Finset.mem_union, Finset.mem_insert, Finset.mem_singleton,
    Finset.mem_Ico, Finset.mem_image, Finset.mem_range]
  constructor
  · rintro ((rfl | rfl) | hcall | ⟨k, hk, rfl⟩)
    · exact ⟨.halt, rfl⟩
    · exact ⟨.ret, rfl⟩
    · exact ⟨.call (BitVec.ofNat 12 (n - 0x2000)), by simp; omega⟩
    · exact ⟨.add (Fin.ofNat 16 (k / 16)) (Fin.ofNat 16 k), by simp; omega⟩
  · rintro ⟨i, rfl⟩
    cases i with
    | halt => exact .inl (.inl rfl)
    | ret => exact .inl (.inr rfl)
    | call addr => exact .inr (.inl (by simp; omega))
    | add x y => exact .inr (.inr ⟨x.val * 16 + y.val, by omega, by simp; omega⟩)

theorem card_instructionWords : instructionWords.card = 4354 := by
  rw [instructionWords, Finset.card_union_of_disjoint, Finset.card_union_of_disjoint,
    Finset.card_image_of_injective, Nat.card_Ico, Finset.card_range]
  · rfl
  · intro a b hab
    simpa using hab
  · rw [Finset.disjoint_left]
    simp only [Finset.mem_Ico, Finset.mem_image, Finset.mem_range]
    omega
  · rw [Finset.disjoint_left]
    simp only [Finset.mem_insert, Finset.mem_singleton, Finset.mem_union, Finset.mem_Ico,
      Finset.mem_image, Finset.mem_range]
    omega

/-- Settles O5: the words accepted are those of the four rows, 1 + 1 + 4096 + 256 of them. -/
theorem instructionWordCount : Obligations.InstructionWordCount := by
  have hwords : ((List.range 65536).filter fun n => (decodeTableWord 16 n).isSome).toFinset
      = instructionWords := by
    ext n
    simp only [List.mem_toFinset, List.mem_filter, List.mem_range]
    rw [mem_instructionWords_iff]
    refine ⟨fun ⟨hn, hsome⟩ => (decodeTableWord_isSome_iff hn).1 hsome, fun ⟨i, hi⟩ => ?_⟩
    have hn : n < 65536 := hi ▸ (encodeWord i).isLt
    exact ⟨hn, (decodeTableWord_isSome_iff hn).2 ⟨i, hi⟩⟩
  rw [Obligations.InstructionWordCount, List.countP_eq_length_filter,
    ← List.toFinset_card_of_nodup (List.nodup_range.filter _), hwords, card_instructionWords]

/-- Settles O7: the listed words, by computation. -/
theorem workedWordsDecode : Obligations.WorkedWordsDecode := by
  unfold Obligations.WorkedWordsDecode
  decide

end Sys2Proof
end

section
/-! SUPPORT. The statements about what an instruction and a step can do (40_execution_cycle.md), and
their frames (10_state.md, 20_memory.md): each effect said once, with the state it leaves. -/

namespace Sys2Proof.Machine

/-! ### Everything an instruction can do -/

/-- The states an instruction can leave `s` in, with the condition of each (R75 to R77, R85). -/
inductive ExecEffect (s : State) : Instr → State → Prop where
  | halts : ExecEffect s .halt (setStatus .halted s)
  | pops (hpos : 0 < s.sp.val) :
      ExecEffect s .ret (setPc s.stack[s.sp.val - 1] (setSp ⟨s.sp.val - 1, by omega⟩ s))
  | underflows (hempty : s.sp.val = 0) : ExecEffect s .ret (raise .stackUnderflow 0 s)
  | pushes (addr : Address) (hlt : s.sp.val < 16) :
      ExecEffect s (.call addr) (setPc (callTarget addr)
        (setSp ⟨s.sp.val + 1, by omega⟩ (writeEntry ⟨s.sp.val, hlt⟩ s.pc s)))
  | overflows (addr : Address) (hfull : s.sp.val = 16) :
      ExecEffect s (.call addr) (raise .stackOverflow 16 s)
  | adds (x y : RegIndex) : ExecEffect s (.add x y) (afterAdd x y s)

theorem exec_effect {i : Instr} {s t : State} (h : exec i s = .next t) : ExecEffect s i t := by
  cases i with
  | halt =>
    cases (exec_halt s).symm.trans h
    exact .halts
  | ret =>
    rcases Nat.eq_zero_or_pos s.sp.val with hempty | hpos
    · cases (exec_ret_of_empty hempty).symm.trans h
      exact .underflows hempty
    · cases (exec_ret_of_pos hpos).symm.trans h
      exact .pops hpos
  | call addr =>
    rcases Nat.lt_or_ge s.sp.val 16 with hlt | hfull
    · cases (exec_call_of_lt addr hlt).symm.trans h
      exact .pushes addr hlt
    · cases (exec_call_of_full addr hfull).symm.trans h
      exact .overflows addr (by omega)
  | add x y =>
    cases (exec_add x y s).symm.trans h
    exact .adds x y

/-! ### What an ADD leaves unchanged (R85) -/

section AddFields

variable (x y : RegIndex) (s : State)

@[simp] theorem afterAdd_pc : (afterAdd x y s).pc = s.pc := rfl
@[simp] theorem afterAdd_stack : (afterAdd x y s).stack = s.stack := rfl
@[simp] theorem afterAdd_sp : (afterAdd x y s).sp = s.sp := rfl
@[simp] theorem afterAdd_faultKind : (afterAdd x y s).faultKind = s.faultKind := rfl
@[simp] theorem afterAdd_faultInfo : (afterAdd x y s).faultInfo = s.faultInfo := rfl
@[simp] theorem afterAdd_mem : (afterAdd x y s).mem = s.mem := rfl

end AddFields

/-- A register that is neither the destination nor the flag keeps its value. -/
theorem readReg_afterAdd_other {x r : RegIndex} (y : RegIndex) (s : State) (hx : r ≠ x)
    (hflag : r ≠ 15) : readReg r (afterAdd x y s) = readReg r s := by
  rw [afterAdd, readReg_writeReg_other _ _ hflag, readReg_writeReg_other _ _ hx]

/-! ### What every instruction leaves unchanged -/

/-- No instruction writes memory (20_memory.md R37). -/
theorem exec_mem {i : Instr} {s t : State} (h : exec i s = .next t) : t.mem = s.mem := by
  cases exec_effect h <;> rfl

/-- No instruction but ADD writes a general register (10_state.md R13). -/
theorem exec_v {i : Instr} {s t : State} (h : exec i s = .next t) (hi : ∀ x y, i ≠ .add x y) :
    t.v = s.v := by
  cases exec_effect h with
  | adds x y => exact absurd rfl (hi x y)
  | _ => rfl

/-- Only the entry at `sp` is ever written (10_state.md R16). -/
theorem exec_stack {i : Instr} {s t : State} (h : exec i s = .next t) (k : Fin 16)
    (hk : k.val ≠ s.sp.val) : t.stack[k] = s.stack[k] := by
  cases exec_effect h with
  | pushes addr hlt => exact writeEntry_stack_other s s.pc (Fin.ne_of_val_ne hk)
  | _ => rfl

/-- Settles O21: the frame of all instructions, and for each of HALT, RET and CALL its own effect. -/
theorem controlFlowFrame : Obligations.ControlFlowFrame := by
  intro i s t hi hexec
  have hadd : ∀ x y, i ≠ .add x y := by
    rintro x y rfl
    simp at hi
  refine ⟨fun r => readReg_congr r (exec_v hexec hadd), fun a => by rw [exec_mem hexec], ?_⟩
  cases exec_effect hexec with
  | halts => simp
  | pops hpos => simp [hpos.ne']
  | underflows hempty => simp [hempty]
  | pushes addr hlt =>
    refine ⟨fun k hk => exec_stack hexec k (hk ⟨addr, rfl⟩), nofun, nofun, fun _ _ => ?_⟩
    rw [if_neg hlt.ne]
    exact ⟨rfl, rfl, rfl⟩
  | overflows addr hfull => simp [hfull]
  | adds x y => exact absurd rfl (hadd x y)

/-- Settles O22: an ADD is two register writes, the destination's and the flag's. -/
theorem addFrame : Obligations.AddFrame := by
  intro s t x y hexec
  cases (exec_add x y s).symm.trans hexec
  exact ⟨fun _ => readReg_afterAdd_other y s, fun _ => rfl, fun _ => rfl, rfl, rfl, rfl, rfl, rfl⟩

/-! ### What every step leaves unchanged -/

theorem step_mem {s t : State} (h : step s = .next t) : t.mem = s.mem := by
  rcases step_cases h with ⟨-, rfl⟩ | ⟨-, -, rfl⟩ | ⟨-, -, -, rfl⟩ | ⟨-, -, i, -, hexec⟩
  · rfl
  · rfl
  · rfl
  · exact (exec_mem hexec).trans (advance_mem s)

theorem step_stack {s t : State} (h : step s = .next t) (k : Fin 16) (hk : k.val ≠ s.sp.val) :
    t.stack[k] = s.stack[k] := by
  rcases step_cases h with ⟨-, rfl⟩ | ⟨-, -, rfl⟩ | ⟨-, -, -, rfl⟩ | ⟨-, -, i, -, hexec⟩
  · rfl
  · rfl
  · rfl
  · exact exec_stack hexec k hk

/-- Every step answers, so that the next state is the one it answers. -/
theorem step_nextState (s : State) : step s = .next (nextState s) := by
  obtain ⟨t, hstep⟩ := step_answers s
  rw [nextState_of_step hstep, hstep]

theorem afterSteps_mem (n : Nat) (s : State) : (afterSteps n s).mem = s.mem := by
  induction n generalizing s with
  | zero => rfl
  | succ n ih => exact (ih (nextState s)).trans (step_mem (step_nextState s))

/-- Settles O23: no step writes memory. -/
theorem memoryIsConstantInARun : Obligations.MemoryIsConstantInARun := by
  intro s n a
  rw [afterSteps_mem]

/-- Settles O24: of the four ways a step goes, only an instruction writes registers, and of those
only an ADD. -/
theorem registersChangeOnlyByAdd : Obligations.RegistersChangeOnlyByAdd := by
  intro s t r hstep hchange
  rcases step_cases hstep with ⟨-, rfl⟩ | ⟨-, -, rfl⟩ | ⟨-, -, -, rfl⟩ |
    ⟨hrun, hpc, i, hdecode, hexec⟩
  · exact absurd rfl hchange
  · exact absurd rfl hchange
  · exact absurd rfl hchange
  · refine ⟨hrun, hpc, ?_⟩
    cases exec_effect hexec with
    | adds x y =>
      refine ⟨x, y, hdecode, ?_⟩
      by_contra! hr
      exact hchange (readReg_afterAdd_other y (advance s) hr.1 hr.2)
    | _ => exact absurd rfl hchange

/-! ### Stopped and running -/

/-- Settles O10: a stopped machine stays, a running one is raised or executes. -/
theorem everyStepAnswers : Obligations.EveryStepAnswers := step_answers

/-- Settles O8: the two bytes at the pc form the word that the step dispatches. -/
theorem stepRunsTheDecodedInstruction : Obligations.StepRunsTheDecodedInstruction := by
  intro s i hrun hpc _ hbytes
  obtain ⟨hdecode, -⟩ := decodeBytes_pair hbytes
  exact step_decoded hrun hpc hdecode

/-- Settles O25: what goes on running is an ADD, a CALL or a RET that did not fault. -/
theorem pcMovesOnlyAsListed : Obligations.PcMovesOnlyAsListed := by
  intro s t hstep hrunning
  rcases step_cases hstep with ⟨hstopped, rfl⟩ | ⟨-, -, rfl⟩ | ⟨-, -, -, rfl⟩ |
    ⟨-, hpc, i, hdecode, hexec⟩
  · exact absurd hrunning hstopped
  · cases hrunning
  · cases hrunning
  · cases exec_effect hexec with
    | halts => cases hrunning
    | pops hpos =>
      refine .inr (.inr ⟨hdecode, hpos, ?_⟩)
      simp only [ofNat_eq_mk (show s.sp.val - 1 < 16 by omega)]
      rfl
    | underflows => cases hrunning
    | pushes addr => exact .inr (.inl ⟨addr, hdecode, by simp [callTarget]; omega⟩)
    | overflows => cases hrunning
    | adds x y => exact .inl ⟨advance_pc_toNat s hpc, x, y, hdecode⟩

end Sys2Proof.Machine
end

section
/-! SUPPORT. The statements about invariants (10_state.md section 5, 20_memory.md): what a stop
records, the bound of the pc, and what a step cannot learn. -/

namespace Sys2Proof.Machine

/-! ### The stop record (60_exceptions.md R96 to R101) -/

section StopRecord

variable {s : State}

@[simp] theorem pastAFetch_setStatus (st : Status) : pastAFetch (setStatus st s) = pastAFetch s := rfl
@[simp] theorem lastWord_setStatus (st : Status) : lastWord (setStatus st s) = lastWord s := rfl
@[simp] theorem pastAFetch_raise (k : FaultKind) (info : Word) :
    pastAFetch (raise k info s) = pastAFetch s := rfl
@[simp] theorem lastWord_raise (k : FaultKind) (info : Word) :
    lastWord (raise k info s) = lastWord s := rfl

/-- The record of a running machine is an empty one. -/
theorem stopRecordOk_running_iff (hrun : s.status = .running) :
    stopRecordOk s = true ↔ s.noFaultRecorded := by
  unfold stopRecordOk State.noFaultRecorded
  rw [hrun]
  cases s.faultKind <;> simp

theorem pastAFetch_advance (hpc : s.pc.toNat ≤ 4094) : pastAFetch (advance s) = true := by
  simp only [pastAFetch, advance_pc_toNat s hpc, Bool.and_eq_true, decide_eq_true_eq]
  omega

/-- Behind a fetch the last word is the one fetched. -/
theorem lastWord_advance (hpc : s.pc.toNat ≤ 4094) : lastWord (advance s) = nextWord s := by
  rw [lastWord, advance_pc_toNat s hpc]
  rfl

/-- An instruction leaves a record that names its cause: its own word behind the pc, and for the stack
faults the depth. -/
theorem stopRecordOk_exec {i : Instr} {t : State} (hrun : s.status = .running)
    (hnone : s.noFaultRecorded) (hpast : pastAFetch s = true)
    (hlast : decodeWord (lastWord s) = .ok i) (hexec : exec i s = .next t) :
    stopRecordOk t = true := by
  cases exec_effect hexec with
  | halts =>
    obtain ⟨hkind, hinfo⟩ := hnone
    simp [stopRecordOk, hkind, hinfo, hpast, hlast]
  | pops => exact (stopRecordOk_running_iff (by exact hrun)).2 hnone
  | underflows hempty => simp [stopRecordOk, hempty, hpast, hlast]
  | pushes => exact (stopRecordOk_running_iff (by exact hrun)).2 hnone
  | overflows addr hfull =>
    have hclass : (lastWord s).extractLsb' 12 4 = 2 := BitVec.eq_of_toNat_eq <|
      (splitWord_c_toNat _).trans (exists_decodeWord_eq_call_iff.1 ⟨addr, hlast⟩)
    simp [stopRecordOk, hfull, hpast, hclass]
  | adds => exact (stopRecordOk_running_iff (by exact hrun)).2 hnone

end StopRecord

/-- Settles O37: memory is never written, and each way a step goes leaves its own record. -/
theorem stepKeepsTheInvariant : Obligations.StepKeepsTheInvariant := by
  intro s t hinv hstep
  have hmem : t.mem = s.mem := step_mem hstep
  refine ⟨hmem ▸ hinv.memory, ?_⟩
  rcases step_cases hstep with ⟨-, rfl⟩ | ⟨-, hpc, rfl⟩ | ⟨-, hpc, herror, rfl⟩ |
    ⟨hrun, hpc, i, hdecode, hexec⟩
  · exact hinv.stop
  · simp [stopRecordOk, hpc]
  · have hrows : rowsOf (nextWord s) = [] := rowsOf_eq_nil_iff.2 herror
    simp [stopRecordOk, pastAFetch_advance hpc, lastWord_advance hpc, hrows]
  · have hnone : s.noFaultRecorded := (stopRecordOk_running_iff hrun).1 hinv.stop
    have hlast : decodeWord (lastWord (advance s)) = .ok i := lastWord_advance hpc ▸ hdecode
    exact stopRecordOk_exec (s := advance s) hrun hnone (pastAFetch_advance hpc) hlast hexec

/-! ### The bound of the pc (92_eei_decisions.md D1) -/

theorem pcBounded_advance {s : State} (h : s.PcBounded) (hpc : s.pc.toNat ≤ 4094) :
    (advance s).PcBounded :=
  ⟨by rw [advance_pc_toNat s hpc]; omega, h.entries⟩

/-- A CALL pushes the pc and goes to a 12-bit address; a RET goes to an entry. -/
theorem exec_keeps_pcBounded {i : Instr} {s t : State} (h : s.PcBounded)
    (hexec : exec i s = .next t) : t.PcBounded := by
  cases exec_effect hexec with
  | pops hpos => exact ⟨h.entries ⟨s.sp.val - 1, by omega⟩, h.entries⟩
  | pushes addr hlt =>
    refine ⟨by simp [callTarget]; omega, fun k => ?_⟩
    by_cases hk : k.val = s.sp.val
    · obtain rfl : k = ⟨s.sp.val, hlt⟩ := Fin.ext hk
      simpa using h.pc
    · rw [exec_stack hexec k hk]
      exact h.entries k
  | _ => exact ⟨h.pc, h.entries⟩

/-- Settles O38: only a fetch below the end moves the pc, and every entry is such a pc. -/
theorem stepKeepsThePcBounded : Obligations.StepKeepsThePcBounded := by
  intro s t h hstep
  rcases step_cases hstep with ⟨-, rfl⟩ | ⟨-, -, rfl⟩ | ⟨-, hpc, -, rfl⟩ | ⟨-, hpc, i, -, hexec⟩
  · exact h
  · exact ⟨h.pc, h.entries⟩
  · obtain ⟨hpc', hentries⟩ := pcBounded_advance h hpc
    exact ⟨hpc', hentries⟩
  · exact exec_keeps_pcBounded (pcBounded_advance h hpc) hexec

/-- Settles O36: each field by computation, and the two invariants where everything is zero. -/
theorem resetState : Obligations.ResetState := by
  have hv (r : RegIndex) : readReg r State.reset = 0 := by simp [readReg, State.reset]
  have hstack (k : Fin 16) : State.reset.stack[k] = 0 := by simp [State.reset]
  have hinv : State.reset.Inv := ⟨wf_reset, (stopRecordOk_running_iff rfl).2 ⟨rfl, rfl⟩⟩
  have hbounded : State.reset.PcBounded := ⟨Nat.zero_le _, fun k => by rw [hstack]; exact Nat.zero_le _⟩
  exact ⟨hv, rfl, hstack, rfl, rfl, rfl, rfl, fun _ => rfl, hinv, hbounded⟩

/-! ### Bytes that are not fetched (20_memory.md R31) -/

/-- The same machine with another memory. -/
def State.withMem (m : Memory) (s : State) : State := { s with mem := m }

/-- An instruction neither reads nor writes memory. -/
theorem exec_withMem {i : Instr} {s u : State} (m : Memory) (h : exec i s = .next u) :
    exec i (s.withMem m) = .next (u.withMem m) := by
  cases exec_effect h with
  | halts => rfl
  | pops hpos => exact exec_ret_of_pos (s := s.withMem m) hpos
  | underflows hempty => exact exec_ret_of_empty (s := s.withMem m) hempty
  | pushes addr hlt => exact exec_call_of_lt (s := s.withMem m) addr hlt
  | overflows addr hfull => exact exec_call_of_full (s := s.withMem m) addr hfull.ge
  | adds x y => rfl

/-- A step sees of memory the word it fetches alone. -/
theorem step_withMem {s u : State} {m : Memory} (hword : nextWord (s.withMem m) = nextWord s)
    (h : step s = .next u) : step (s.withMem m) = .next (u.withMem m) := by
  rcases step_cases h with ⟨hstopped, heq⟩ | ⟨hrun, hpc, rfl⟩ | ⟨hrun, hpc, herror, rfl⟩ |
    ⟨hrun, hpc, i, hdecode, hexec⟩
  · rw [heq]
    exact step_stopped (s := s.withMem m) hstopped
  · exact step_outOfBounds (s := s.withMem m) hrun hpc
  · rw [step_fetched (s := s.withMem m) hrun hpc, hword]
    exact dispatchWord_error herror
  · have hdecode' : decodeWord (nextWord (s.withMem m)) = .ok i := by rw [hword, hdecode]
    rw [step_decoded (s := s.withMem m) hrun hpc hdecode']
    exact exec_withMem m hexec

/-- Settles O39: states with the same two bytes at the pc fetch the same word. -/
theorem unfetchedBytesHaveNoEffect : Obligations.UnfetchedBytesHaveNoEffect := by
  intro s t hsame
  have hother : t = s.withMem t.mem := hsame.registers
  have hword : nextWord (s.withMem t.mem) = nextWord s :=
    congrArg₂ bigEndian hsame.high.symm hsame.low.symm
  have hstep := step_withMem hword (step_nextState s)
  rw [← hother] at hstep
  exact ⟨nextState s, step_nextState s, hstep⟩

end Sys2Proof.Machine
end

section
/-! SUPPORT. The statements about register 15 (42_arithmetic.md R87 to R89, 10_state.md R12): the flag
as destination, as source, and before an ADD. -/

namespace Sys2Proof.Machine

/-- The two parts of the 9-bit sum that an ADD leaves, read as entries of `v`. -/
theorem afterAdd_flag_toNat (x y : RegIndex) (s : State) :
    (afterAdd x y s).v[15].toNat = (s.v[x].toNat + s.v[y].toNat) / 256 :=
  (congrArg BitVec.toNat (readReg_afterAdd_flag x y s)).trans (addCarry_toNat _ _)

theorem afterAdd_dest_toNat {x : RegIndex} (y : RegIndex) (s : State) (hx : x ≠ 15) :
    (afterAdd x y s).v[x].toNat = (s.v[x].toNat + s.v[y].toNat) % 256 :=
  (congrArg BitVec.toNat (readReg_afterAdd_dest y s hx)).trans (addResult_toNat _ _)

/-- Settles O18: the flag is written last, and it is the only register written. -/
theorem addIntoTheFlagKeepsTheCarry : Obligations.AddIntoTheFlagKeepsTheCarry := fun s y =>
  ⟨afterAdd 15 y s, exec_add 15 y s, afterAdd_flag_toNat 15 y s,
    fun _ hr => readReg_afterAdd_other y s hr hr⟩

/-- Settles O19: both sources are read in the state before; a doubled byte carries from 128 on. -/
theorem addReadsBeforeItWrites : Obligations.AddReadsBeforeItWrites := by
  refine ⟨fun s x hx => ⟨afterAdd x 15 s, exec_add x 15 s, afterAdd_dest_toNat 15 s hx,
    afterAdd_flag_toNat x 15 s⟩, fun s x hx => ⟨afterAdd x x s, exec_add x x s, ?_, ?_⟩⟩
  · rw [afterAdd_dest_toNat x s hx, two_mul]
  · have hflag : (afterAdd x x s).v[15] = addCarry s.v[x] s.v[x] := readReg_afterAdd_flag x x s
    rw [hflag, addCarry_eq_one_iff]
    omega

theorem addCarry_eq_zero_or_one (a b : Byte) : addCarry a b = 0 ∨ addCarry a b = 1 := by
  rcases Nat.lt_or_ge 255 (a.toNat + b.toNat) with h | h
  · exact .inr (addCarry_of_gt h)
  · exact .inl (addCarry_of_le h)

/-- Settles O20: the flag an ADD leaves is a carry, and a flag it does not name is lost. -/
theorem flagIsNeverStale : Obligations.FlagIsNeverStale := by
  refine fun s x y => ⟨⟨afterAdd x y s, exec_add x y s, ?_⟩, fun hx hy f => ?_⟩
  · have hflag : (afterAdd x y s).v[15] = addCarry s.v[x] s.v[y] := readReg_afterAdd_flag x y s
    rw [hflag]
    exact addCarry_eq_zero_or_one _ _
  · rw [exec_add, exec_add, afterAdd_writeReg_flag f s hx hy]

end Sys2Proof.Machine
end

section
/-! SUPPORT. The statements about the status (40_execution_cycle.md section 3, 60_exceptions.md
section 2): what a fault writes, and which step ends in which status. -/

namespace Sys2Proof.Machine

/-- Settles O30: a fetch past the end is raised on the state itself, the other three faults on the
advanced one. -/
theorem faultsArePrecise : Obligations.FaultsArePrecise := by
  intro s t hrun hstep hfaulted
  have hnot (h : s.status = .faulted) : False := by cases hrun.symm.trans h
  rcases step_cases hstep with ⟨hstopped, -⟩ | ⟨-, -, rfl⟩ | ⟨-, -, -, rfl⟩ | ⟨-, -, i, -, hexec⟩
  · exact absurd hrun hstopped
  · exact ⟨rfl, by simp, by simp⟩
  · exact ⟨rfl, by simp, by simp⟩
  · cases exec_effect hexec with
    | halts => cases hfaulted
    | pops => exact (hnot hfaulted).elim
    | underflows => exact ⟨rfl, by simp, by simp⟩
    | pushes => exact (hnot hfaulted).elim
    | overflows => exact ⟨rfl, by simp, by simp⟩
    | adds => exact (hnot hfaulted).elim

/-- Settles O31: the words and rows named there are what the decoder says, and of its verdicts each
way a step goes has exactly one. -/
theorem statusTransitions : Obligations.StatusTransitions := by
  refine fun s t hstep => ⟨fun hstopped => ?_, fun hrun => ?_⟩
  · cases (step_stopped hstopped).symm.trans hstep
    rfl
  · rw [← decodeWord_eq_halt_iff, rowsOf_eq_nil_iff, ← decodeWord_eq_ret_iff,
      ← exists_decodeWord_eq_call_iff]
    rcases step_cases hstep with ⟨hstopped, -⟩ | ⟨-, hpc, rfl⟩ | ⟨-, hpc, herror, rfl⟩ |
      ⟨-, hpc, i, hdecode, hexec⟩
    · exact absurd hrun hstopped
    · simp [hpc, Nat.not_le.2 (show 4094 < s.pc.toNat from hpc)]
    · simp [hpc, herror]
    · have hbelow : ¬ 4095 ≤ s.pc.toNat := by omega
      simp only [hdecode, hbelow, hpc, false_or, true_and]
      cases exec_effect hexec with
      | halts => simp
      | pops hpos => simpa [hrun] using hpos.ne'
      | underflows hempty => simpa using hempty
      | pushes addr hlt => simpa [hrun] using hlt.ne
      | overflows addr hfull => simpa using hfull
      | adds x y => simp [hrun]

end Sys2Proof.Machine
end

section
/-! SUPPORT. The statement about nested calls (41_control_flow.md R78): the entry a CALL pushed stays
until the RET at its depth. -/

namespace Sys2Proof.Machine

/-- An entry is kept over steps that never have `sp` at it. -/
theorem afterSteps_stack {s : State} (k : Fin 16) (n : Nat)
    (h : ∀ j < n, (afterSteps j s).sp.val ≠ k.val) :
    (afterSteps n s).stack[k] = s.stack[k] := by
  induction n with
  | zero => rfl
  | succ n ih =>
    rw [afterSteps_succ_last]
    exact (step_stack (step_nextState _) k (h n n.lt_succ_self).symm).trans
      (ih fun j hj => h j (Nat.lt_succ_of_lt hj))

/-- A CALL with an entry free stores the address behind it and goes one level deeper (R77). -/
theorem nextState_call_of_lt {s : State} {addr : Address} (hrun : s.status = .running)
    (hpc : s.pc.toNat ≤ 4094) (hcall : decodeWord (nextWord s) = .ok (.call addr))
    (hlt : s.sp.val < 16) :
    nextState s = setPc (callTarget addr) (setSp ⟨s.sp.val + 1, by omega⟩
      (writeEntry ⟨s.sp.val, hlt⟩ (s.pc + 2) (advance s))) :=
  nextState_of_step
    ((step_decoded hrun hpc hcall).trans (exec_call_of_lt (s := advance s) addr hlt))

/-- A RET with an entry in use goes to it, one level up (R76). -/
theorem nextState_ret_of_pos {s : State} (hrun : s.status = .running) (hpc : s.pc.toNat ≤ 4094)
    (hret : decodeWord (nextWord s) = .ok .ret) (hpos : 0 < s.sp.val) :
    nextState s = setPc s.stack[s.sp.val - 1] (setSp ⟨s.sp.val - 1, by omega⟩ (advance s)) :=
  nextState_of_step ((step_decoded hrun hpc hret).trans (exec_ret_of_pos (s := advance s) hpos))

/-- Settles O33: the CALL stores p + 2 in the entry n, the code between keeps it, the RET takes it. -/
theorem callThenRetResumes : Obligations.CallThenRetResumes := by
  intro s addr m hrun hpc hlt hcall hm hdeep hrun' hpc' hret hsp
  obtain ⟨m, rfl⟩ : ∃ j, m = j + 1 := Nat.exists_eq_add_of_le' hm
  have hpushed : (nextState s).stack[s.sp.val] = s.pc + 2 := by
    rw [nextState_call_of_lt hrun hpc hcall hlt]
    exact writeEntry_stack_same (advance s) ⟨s.sp.val, hlt⟩ (s.pc + 2)
  have hkept : (afterSteps (m + 1) s).stack[s.sp.val] = (nextState s).stack[s.sp.val] :=
    afterSteps_stack ⟨s.sp.val, hlt⟩ m fun j hj => (hdeep (j + 1) (by omega) (by omega)).ne'
  have hentry : (afterSteps (m + 1) s).stack[(afterSteps (m + 1) s).sp.val - 1] = s.pc + 2 := by
    simp only [hsp, Nat.add_sub_cancel]
    exact hkept.trans hpushed
  rw [afterSteps_succ_last (m + 1), nextState_ret_of_pos hrun' hpc' hret (by omega)]
  exact ⟨Fin.ext (Nat.sub_eq_of_eq_add hsp),
    (congrArg BitVec.toNat hentry).trans (advance_pc_toNat s hpc)⟩

end Sys2Proof.Machine
end

section
/-! SUPPORT. The statements about runs (40_execution_cycle.md section 4): a stopped machine stays, and
every run ends, by a bound on the fetches still to come (R71). -/

namespace Sys2Proof.Machine

/-! ### The loop (R66, R68) -/

theorem runFor_stopped {s : State} (h : s.status ≠ .running) (fuel : Nat) :
    runFor fuel s = .next s := by
  cases fuel with
  | zero => rfl
  | succ fuel =>
    unfold runFor
    split
    · exact absurd ‹_› h
    · rfl
    · rfl

theorem runFor_succ {s t : State} (hrun : s.status = .running) (hstep : step s = .next t)
    (fuel : Nat) : runFor (fuel + 1) s = runFor fuel t := by
  simp only [runFor, hrun, hstep]

theorem afterSteps_stopped {s : State} (h : s.status ≠ .running) (n : Nat) : afterSteps n s = s := by
  induction n with
  | zero => rfl
  | succ n ih => rw [afterSteps_succ, nextState_of_step (step_stopped h), ih]

/-- Settles O11: neither a step nor the loop does anything in a stopped state. -/
theorem stoppedMachineStays : Obligations.StoppedMachineStays := fun _ h =>
  ⟨step_stopped h, afterSteps_stopped h, runFor_stopped h runFuel⟩

theorem runFuel_pos : 0 < runFuel := Nat.two_pow_pos 200

/-- Settles O35: the first step halts, and the loop ends there. -/
theorem haltIsTerminal : Obligations.HaltIsTerminal := by
  intro s hrun hpc hword
  have hstep : step s = .next (setStatus .halted (advance s)) :=
    step_decoded hrun hpc (decodeWord_eq_halt_iff.2 hword)
  obtain ⟨fuel, hfuel⟩ := Nat.exists_eq_succ_of_ne_zero runFuel_pos.ne'
  rw [run, hfuel, runFor_succ hrun hstep]
  exact runFor_stopped (by simp) fuel

/-! ### The fetches still to come (R71)

While a machine runs on, its pc moves up by 2 at its stack depth, but for a CALL, which starts one
level deeper, and a RET, which goes on one level higher, at the entry stored there. So the fetches left
at each open level, weighted so that one fetch at a level outweighs all deeper levels, decrease. -/

/-- The fetches left from a pc on, in steps of 2, before it passes the end. -/
def fetchesLeft (p : Word) : Nat := (4096 - p.toNat) / 2

/-- The worth of a fetch at a stack depth: above that of 2048 fetches one level deeper. -/
def depthWeight (k : Nat) : Nat := 2049 ^ (16 - k)

/-- The call-stack entry at any index, 0 beyond the stack. -/
def entryAt (s : State) (k : Nat) : Word := if h : k < 16 then s.stack[k] else 0

/-- The weighted fetches left at the levels that wait below the first `n` entries. -/
def pendingBudget (s : State) (n : Nat) : Nat :=
  ∑ k ∈ Finset.range n, fetchesLeft (entryAt s k) * depthWeight k

/-- The weighted fetches left at all open levels. -/
def runBudget (s : State) : Nat :=
  pendingBudget s s.sp.val + fetchesLeft s.pc * depthWeight s.sp.val

theorem fetchesLeft_le (p : Word) : fetchesLeft p ≤ 2048 := by
  unfold fetchesLeft
  omega

theorem depthWeight_pos (k : Nat) : 0 < depthWeight k := Nat.pow_pos (by decide)

theorem depthWeight_le (k : Nat) : depthWeight k ≤ 2049 ^ 16 :=
  Nat.pow_le_pow_right (by decide) (Nat.sub_le 16 k)

theorem depthWeight_eq {k : Nat} (h : k < 16) : depthWeight k = 2049 * depthWeight (k + 1) := by
  rw [depthWeight, depthWeight, ← Nat.pow_succ', show 16 - k = 16 - (k + 1) + 1 by omega]

/-- One fetch is worth more than all that can follow one level deeper. -/
theorem fetchesLeft_mul_lt {k : Nat} (h : k < 16) (p : Word) :
    fetchesLeft p * depthWeight (k + 1) < depthWeight k := by
  rw [depthWeight_eq h]
  exact Nat.mul_lt_mul_of_pos_right (Nat.lt_succ_of_le (fetchesLeft_le p)) (depthWeight_pos _)

theorem pendingBudget_succ (s : State) (n : Nat) :
    pendingBudget s (n + 1) =
      pendingBudget s n + fetchesLeft (entryAt s n) * depthWeight n :=
  Finset.sum_range_succ _ n

/-- The waiting levels count the entries below `n` alone. -/
theorem pendingBudget_congr {s t : State} {n : Nat} (h : ∀ k < n, entryAt t k = entryAt s k) :
    pendingBudget t n = pendingBudget s n :=
  Finset.sum_congr rfl fun k hk => by rw [h k (Finset.mem_range.1 hk)]

/-- Each of the at most 17 levels has at most 2048 fetches. -/
theorem runBudget_lt_runFuel (s : State) : runBudget s < runFuel := by
  have hlevel (p : Word) (k : Nat) : fetchesLeft p * depthWeight k ≤ 2048 * 2049 ^ 16 :=
    Nat.mul_le_mul (fetchesLeft_le p) (depthWeight_le k)
  have hpending : pendingBudget s s.sp.val ≤ s.sp.val * (2048 * 2049 ^ 16) := by
    simpa [pendingBudget] using
      Finset.sum_le_card_nsmul (Finset.range s.sp.val) _ _ fun k _ => hlevel (entryAt s k) k
  have hsp : s.sp.val * (2048 * 2049 ^ 16) ≤ 16 * (2048 * 2049 ^ 16) :=
    Nat.mul_le_mul_right _ (by omega)
  calc runBudget s ≤ 16 * (2048 * 2049 ^ 16) + 2048 * 2049 ^ 16 :=
        Nat.add_le_add (hpending.trans hsp) (hlevel s.pc s.sp.val)
    _ < runFuel := by unfold runFuel; norm_num

/-- The fetch itself uses up one. -/
theorem runBudget_advance {s : State} (hpc : s.pc.toNat ≤ 4094) :
    runBudget (advance s) + depthWeight s.sp.val = runBudget s := by
  have hleft : fetchesLeft s.pc = fetchesLeft (advance s).pc + 1 := by
    rw [fetchesLeft, fetchesLeft, advance_pc_toNat s hpc]
    omega
  rw [runBudget, runBudget, hleft, Nat.succ_mul, ← Nat.add_assoc]
  rfl

theorem entryAt_writeEntry_same (s : State) (k : Fin 16) (w : Word) :
    entryAt (writeEntry k w s) k.val = w := by
  simp [entryAt]

theorem entryAt_writeEntry_other (s : State) (k : Fin 16) (w : Word) {j : Nat} (h : j ≠ k.val) :
    entryAt (writeEntry k w s) j = entryAt s j := by
  simp [entryAt, h.symm]

/-- An instruction wins back less than the fetch that brought it used up. -/
theorem runBudget_exec {i : Instr} {s t : State} (h : exec i s = .next t) :
    runBudget t < runBudget s + depthWeight s.sp.val := by
  have hsame : runBudget s < runBudget s + depthWeight s.sp.val :=
    Nat.lt_add_of_pos_right (depthWeight_pos _)
  cases exec_effect h with
  | pops hpos =>
    have hpending := pendingBudget_succ s (s.sp.val - 1)
    rw [Nat.sub_add_cancel hpos] at hpending
    have hentry : entryAt s (s.sp.val - 1) = s.stack[s.sp.val - 1] := dif_pos (by omega)
    have hafter : runBudget (setPc s.stack[s.sp.val - 1] (setSp ⟨s.sp.val - 1, by omega⟩ s)) =
        pendingBudget s s.sp.val := by
      rw [hpending, hentry]
      rfl
    rw [hafter]
    exact (Nat.le_add_right _ _).trans_lt hsame
  | pushes addr hlt =>
    have hbelow : pendingBudget (writeEntry ⟨s.sp.val, hlt⟩ s.pc s) s.sp.val =
        pendingBudget s s.sp.val :=
      pendingBudget_congr fun k hk => entryAt_writeEntry_other s ⟨s.sp.val, hlt⟩ s.pc hk.ne
    have hpending := pendingBudget_succ (writeEntry ⟨s.sp.val, hlt⟩ s.pc s) s.sp.val
    rw [hbelow, entryAt_writeEntry_same s ⟨s.sp.val, hlt⟩] at hpending
    calc _ = pendingBudget (writeEntry ⟨s.sp.val, hlt⟩ s.pc s) (s.sp.val + 1) +
          fetchesLeft (callTarget addr) * depthWeight (s.sp.val + 1) := rfl
      _ = runBudget s + fetchesLeft (callTarget addr) * depthWeight (s.sp.val + 1) := by
        rw [hpending, runBudget]
      _ < runBudget s + depthWeight s.sp.val :=
        Nat.add_lt_add_left (fetchesLeft_mul_lt hlt _) _
  | _ => exact hsame

/-- A step that goes on running has fewer fetches to come. -/
theorem runBudget_step {s t : State} (hrun : s.status = .running) (hstep : step s = .next t)
    (hrunning : t.status = .running) : runBudget t < runBudget s := by
  rcases step_cases hstep with ⟨hstopped, -⟩ | ⟨-, -, rfl⟩ | ⟨-, -, -, rfl⟩ | ⟨-, hpc, i, -, hexec⟩
  · exact absurd hrun hstopped
  · cases hrunning
  · cases hrunning
  · rw [← runBudget_advance hpc]
    exact runBudget_exec hexec

/-! ### Every run ends -/

/-- A loop with more fuel than fetches to come ends at the first stopped state. -/
theorem runFor_ends (fuel : Nat) (s : State) (h : s.status = .running → runBudget s < fuel) :
    ∃ n, runFor fuel s = .next (afterSteps n s) ∧ (afterSteps n s).status ≠ .running ∧
      ∀ k < n, (afterSteps k s).status = .running := by
  induction fuel generalizing s with
  | zero => exact ⟨0, rfl, fun hrun => Nat.not_lt_zero _ (h hrun), nofun⟩
  | succ fuel ih =>
    by_cases hrun : s.status = .running
    · have hstep := step_nextState s
      have hless (hrunning : (nextState s).status = .running) : runBudget (nextState s) < fuel :=
        (runBudget_step hrun hstep hrunning).trans_le (Nat.le_of_lt_succ (h hrun))
      obtain ⟨n, hends, hstopped, hbefore⟩ := ih (nextState s) hless
      refine ⟨n + 1, (runFor_succ hrun hstep fuel).trans hends, hstopped, fun k hk => ?_⟩
      cases k with
      | zero => exact hrun
      | succ k => exact hbefore k (Nat.lt_of_succ_lt_succ hk)
    · exact ⟨0, runFor_stopped hrun _, hrun, nofun⟩

/-- A Run moves to the state the loop ends in, ends the load phase and reports the result. -/
theorem transact_run {x : Session} {u : State} (h : run x.machine = .next u) :
    transact .run x = .next (⟨u, .run⟩, .finished (runResult u)) := by
  simp only [transact, h]

/-- Settles O34: the fuel is more than the fetches to come from any state. -/
theorem runEndsAtTheFirstStop : Obligations.RunEndsAtTheFirstStop := by
  intro s
  obtain ⟨n, hends, hstopped, hbefore⟩ := runFor_ends runFuel s fun _ => runBudget_lt_runFuel s
  exact ⟨n, hends, hstopped, hbefore, fun phase => transact_run (x := ⟨s, phase⟩) hends⟩

end Sys2Proof.Machine
end

section
/-! SUPPORT. The statements about the host's transactions (70_reset_and_hazards.md R120 to R126): what
each write does in the load phase, and what every sequence of writes keeps. -/

namespace Sys2Proof.Machine

/-! ### Loading entries (R126) -/

/-- Loading entries touches no register but the stack. -/
theorem loadEntries_frame (k : Nat) (entries : List Word) (s : State) :
    loadEntries k entries s = { s with stack := (loadEntries k entries s).stack } := by
  induction entries generalizing k s with
  | nil => rfl
  | cons w ws ih =>
    unfold loadEntries
    split
    · exact ih _ _
    · rfl

/-- The entries listed go to `k`, `k + 1`, …, and every other entry keeps its value. -/
theorem loadEntries_stack (k : Nat) (entries : List Word) (s : State) (j : Fin 16) :
    (loadEntries k entries s).stack[j] =
      if k ≤ j.val ∧ j.val < k + entries.length then entries.getD (j.val - k) 0 else s.stack[j] := by
  induction entries generalizing k s with
  | nil => rw [if_neg (by simp)]; rfl
  | cons w ws ih =>
    rw [List.length_cons, loadEntries]
    split
    case isFalse hfull => rw [if_neg (by omega)]
    case isTrue hlt =>
      rw [ih]
      rcases Nat.lt_trichotomy j.val k with hj | hj | hj
      · rw [if_neg (by omega), if_neg (by omega)]
        exact writeEntry_stack_other s w (Fin.ne_of_val_ne hj.ne)
      · obtain rfl : j = ⟨k, hlt⟩ := Fin.ext hj
        rw [if_neg (by simp), if_pos (by simp), writeEntry_stack_same]
        simp
      · have hindex : j.val - k = j.val - (k + 1) + 1 := by omega
        have hrange : (k + 1 ≤ j.val ∧ j.val < k + 1 + ws.length) ↔
            (k ≤ j.val ∧ j.val < k + (ws.length + 1)) := by omega
        rw [hindex, List.getD_cons_succ]
        simp only [hrange]
        split
        · rfl
        · exact writeEntry_stack_other s w (Fin.ne_of_val_ne hj.ne')

/-! ### Each write in the load phase (R123 to R126) -/

section Load

variable {x : Session}

theorem loadOnly_load (h : x.phase = .load) (t : State) :
    loadOnly x t = .next (⟨t, .load⟩, .nothing) := by
  simp only [loadOnly, h]

theorem loadOnly_run (h : x.phase = .run) (t : State) :
    loadOnly x t = .refused .writeAfterLaunch := by
  simp only [loadOnly, h]

theorem transact_loadImage {bytes : List Byte} (h : bytes.length ≤ 4096) :
    transact (.loadImage bytes) x = loadOnly x (loadMemory bytes x.machine) :=
  if_pos (decide_eq_true h)

theorem transact_loadImage_tooLong {bytes : List Byte} (h : 4096 < bytes.length) :
    transact (.loadImage bytes) x = .refused (.imageTooLong bytes.length) :=
  if_neg (by simpa [imageFits] using h)

theorem transact_loadStack {entries : List Word} (h : entries.length ≤ 16) :
    transact (.loadStack entries) x = loadOnly x
      (setSp (Fin.ofNat 17 entries.length) (loadEntries 0 entries x.machine)) :=
  if_pos (decide_eq_true h)

theorem transact_loadStack_tooLong {entries : List Word} (h : 16 < entries.length) :
    transact (.loadStack entries) x = .refused (.stackLoadTooLong entries.length) :=
  if_neg (by simpa [stackLoadFits] using h)

end Load

/-- Settles O41: the memory of an image is canonical and holds its bytes. -/
theorem loadImagePlacesTheBytes : Obligations.LoadImagePlacesTheBytes := by
  refine fun x bytes hload => ⟨fun hfits => ?_, transact_loadImage_tooLong⟩
  have hanswer := (transact_loadImage hfits).trans (loadOnly_load hload _)
  exact ⟨_, hanswer, rfl, rfl, Memory.wf_ofBytes bytes hfits, Memory.readByte_ofBytes bytes hfits⟩

/-- Settles O43: SetPC is one write; LoadStack sets the entries it lists, then sp. -/
theorem setPcAndLoadStack : Obligations.SetPcAndLoadStack := by
  refine fun x hload => ⟨fun a => loadOnly_load hload _, fun entries hfits => ?_,
    fun _ => transact_loadStack_tooLong⟩
  have hanswer := (transact_loadStack hfits).trans (loadOnly_load hload _)
  refine ⟨_, hanswer, rfl, Nat.mod_eq_of_lt (by omega), fun k => ?_, ?_⟩
  · simpa using loadEntries_stack 0 entries x.machine k
  · rw [loadEntries_frame]
    rfl

/-! ### After launch (R121) -/

/-- Settles O44: every write goes through the phase; Step and Run always answer, in the run phase. -/
theorem writesOnlyInTheLoadPhase : Obligations.WritesOnlyInTheLoadPhase := by
  refine ⟨fun x t hlaunched hwrites => ?_, fun x y t reply ht hanswer => ?_, fun _ => rfl,
    fun x y r reply hanswer => ?_⟩
  · cases t with
    | loadImage bytes =>
      rcases Nat.lt_or_ge 4096 bytes.length with hlong | hfits
      · exact ⟨_, transact_loadImage_tooLong hlong⟩
      · exact ⟨_, (transact_loadImage hfits).trans (loadOnly_run hlaunched _)⟩
    | seedRegister i b => exact ⟨_, loadOnly_run hlaunched _⟩
    | setPc a => exact ⟨_, loadOnly_run hlaunched _⟩
    | loadStack entries =>
      rcases Nat.lt_or_ge 16 entries.length with hlong | hfits
      · exact ⟨_, transact_loadStack_tooLong hlong⟩
      · exact ⟨_, (transact_loadStack hfits).trans (loadOnly_run hlaunched _)⟩
    | _ => cases hwrites
  · rcases ht with rfl | rfl
    · cases (transact_step (step_nextState x.machine)).symm.trans hanswer
      rfl
    · obtain ⟨n, hends, -⟩ := runEndsAtTheFirstStop x.machine
      cases (transact_run hends).symm.trans hanswer
      rfl
  · cases hanswer
    rfl

/-! ### Sequences of writes (R136) -/

/-- What a write transaction that is not refused does to the machine (R123 to R126). -/
inductive WriteEffect (s : State) : Transaction → State → Prop where
  | loadsImage (bytes : List Byte) (hfits : bytes.length ≤ 4096) :
      WriteEffect s (.loadImage bytes) (loadMemory bytes s)
  | seeds (i : RegIndex) (b : Byte) : WriteEffect s (.seedRegister i b) (writeReg i b s)
  | setsPc (a : Word) : WriteEffect s (.setPc a) (setPc a s)
  | loadsStack (entries : List Word) :
      WriteEffect s (.loadStack entries)
        (setSp (Fin.ofNat 17 entries.length) (loadEntries 0 entries s))

theorem eq_of_loadOnly {x y : Session} {t : State} {reply : Reply}
    (h : loadOnly x t = .next (y, reply)) : y = ⟨t, .load⟩ := by
  cases hphase : x.phase with
  | load =>
    cases (loadOnly_load hphase t).symm.trans h
    rfl
  | run => cases (loadOnly_run hphase t).symm.trans h

theorem transact_write_effect {t : Transaction} {x y : Session} {reply : Reply}
    (hwrites : t.writes = true) (h : transact t x = .next (y, reply)) :
    y.phase = .load ∧ WriteEffect x.machine t y.machine := by
  cases t with
  | loadImage bytes =>
    rcases Nat.lt_or_ge 4096 bytes.length with hlong | hfits
    · cases (transact_loadImage_tooLong hlong).symm.trans h
    · obtain rfl := eq_of_loadOnly ((transact_loadImage hfits).symm.trans h)
      exact ⟨rfl, .loadsImage bytes hfits⟩
  | seedRegister i b =>
    obtain rfl := eq_of_loadOnly h
    exact ⟨rfl, .seeds i b⟩
  | setPc a =>
    obtain rfl := eq_of_loadOnly h
    exact ⟨rfl, .setsPc a⟩
  | loadStack entries =>
    rcases Nat.lt_or_ge 16 entries.length with hlong | hfits
    · cases (transact_loadStack_tooLong hlong).symm.trans h
    · obtain rfl := eq_of_loadOnly ((transact_loadStack hfits).symm.trans h)
      exact ⟨rfl, .loadsStack entries⟩
  | _ => cases hwrites

/-- What each transaction of a sequence keeps, the sequence keeps. -/
theorem transactAll_keeps {P : Session → Prop} {ts : List Transaction} {x y : Session}
    (hkeeps : ∀ t ∈ ts, ∀ x y reply, transact t x = .next (y, reply) → P x → P y)
    (h : transactAll ts x = .next y) (hx : P x) : P y := by
  induction ts generalizing x with
  | nil =>
    cases h
    exact hx
  | cons t ts ih =>
    rw [transactAll] at h
    split at h
    case h_1 z reply hstep =>
      exact ih (fun u hu => hkeeps u (List.mem_cons_of_mem t hu)) h
        (hkeeps t List.mem_cons_self x z reply hstep hx)
    case h_2 => cases h
    case h_3 => cases h

/-- What each effect on the machine keeps, a sequence of writes keeps. -/
theorem transactAll_writes_keep {P : State → Prop} {ts : List Transaction} {x y : Session}
    (hwrites : ∀ t ∈ ts, t.writes = true)
    (hkeeps : ∀ t ∈ ts, ∀ s u, WriteEffect s t u → P s → P u)
    (h : transactAll ts x = .next y) (hx : P x.machine) : P y.machine :=
  transactAll_keeps (P := fun x => P x.machine) (fun t ht x y _ hstep hx =>
    hkeeps t ht x.machine y.machine (transact_write_effect (hwrites t ht) hstep).2 hx) h hx

section Effects

variable {s u : State} {t : Transaction} (h : WriteEffect s t u)
include h

/-- No write touches the status, the fault registers or the canonical form of memory. -/
theorem writeEffect_status : u.status = s.status := by
  cases h with
  | loadsStack entries => rw [loadEntries_frame]; rfl
  | _ => rfl

theorem writeEffect_noFault (hs : s.noFaultRecorded) : u.noFaultRecorded := by
  cases h with
  | loadsStack entries => rw [loadEntries_frame]; exact hs
  | _ => exact hs

theorem writeEffect_wf (hs : Memory.wf s.mem = true) : Memory.wf u.mem = true := by
  cases h with
  | loadsImage bytes hfits => exact Memory.wf_ofBytes bytes hfits
  | loadsStack entries => rw [loadEntries_frame]; exact hs
  | _ => exact hs

theorem writeEffect_sp (ht : ∀ entries, .loadStack entries ≠ t) : u.sp = s.sp := by
  cases h with
  | loadsStack entries => exact absurd rfl (ht entries)
  | _ => rfl

theorem writeEffect_pc (ht : ∀ a, .setPc a ≠ t) : u.pc = s.pc := by
  cases h with
  | setsPc a => exact absurd rfl (ht a)
  | loadsStack entries => rw [loadEntries_frame]; rfl
  | _ => rfl

theorem writeEffect_mem (ht : ∀ bytes, .loadImage bytes ≠ t) : u.mem = s.mem := by
  cases h with
  | loadsImage bytes => exact absurd rfl (ht bytes)
  | loadsStack entries => rw [loadEntries_frame]; rfl
  | _ => rfl

theorem writeEffect_readReg {i : RegIndex} (ht : ∀ b, .seedRegister i b ≠ t) :
    readReg i u = readReg i s := by
  cases h with
  | seeds r b => exact readReg_writeReg_other s b fun hir => ht b (hir ▸ rfl)
  | loadsStack entries => rw [loadEntries_frame]; rfl
  | _ => rfl

end Effects

/-- Settles O45: each premise holds at reset, and each write keeps it but the one named. -/
theorem launchPremises : Obligations.LaunchPremises := by
  intro ts x hwrites hall
  obtain ⟨hv, -⟩ := resetState
  have hother {t u : Transaction} (ht : t ∈ ts) (hu : u ∉ ts) : u ≠ t := fun e => hu (e ▸ ht)
  refine ⟨⟨?_, ?_, ?_, ?_⟩, fun hnone => ?_, fun hnone => ?_, fun hnone => ?_, fun i hnone => ?_⟩
  · exact transactAll_keeps (P := fun x => x.phase = .load)
      (fun t ht _ _ _ hstep _ => (transact_write_effect (hwrites t ht) hstep).1) hall rfl
  · exact transactAll_writes_keep (P := fun s => s.status = .running) hwrites
      (fun _ _ _ _ heff => (writeEffect_status heff).trans) hall rfl
  · exact transactAll_writes_keep (P := State.noFaultRecorded) hwrites
      (fun _ _ _ _ => writeEffect_noFault) hall ⟨rfl, rfl⟩
  · exact transactAll_writes_keep (P := fun s => Memory.wf s.mem = true) hwrites
      (fun _ _ _ _ => writeEffect_wf) hall wf_reset
  · exact transactAll_writes_keep (P := fun s => s.sp.val = 0) hwrites (fun _ ht _ _ heff =>
      (congrArg Fin.val (writeEffect_sp heff fun entries => hother ht (hnone entries))).trans) hall rfl
  · exact transactAll_writes_keep (P := fun s => s.pc = 0) hwrites (fun _ ht _ _ heff =>
      (writeEffect_pc heff fun a => hother ht (hnone a)).trans) hall rfl
  · exact transactAll_writes_keep (P := fun s => s.mem = []) hwrites (fun _ ht _ _ heff =>
      (writeEffect_mem heff fun bytes => hother ht (hnone bytes)).trans) hall rfl
  · exact transactAll_writes_keep (P := fun s => readReg i s = 0) hwrites (fun _ ht _ _ heff =>
      (writeEffect_readReg heff fun b => hother ht (hnone b)).trans) hall (hv i)

end Sys2Proof.Machine
end

section
/-! SUPPORT. The statements about the host port (70_reset_and_hazards.md R134): what each address
names, and the reads and writes there. -/

namespace Sys2Proof.Machine

/-! ### The addresses -/

theorem portTarget_mem (addr : Address) : portTarget 0 addr = some (.mem addr) := rfl

theorem portTarget_v {addr : Address} (h : addr.toNat < 16) :
    portTarget 1 addr = some (.v ⟨addr.toNat, h⟩) := by
  simp [portTarget, h]

theorem portTarget_stack {addr : Address} (h : addr.toNat < 16) :
    portTarget 2 addr = some (.stack ⟨addr.toNat, h⟩) := by
  simp [portTarget, h]

/-! ### A read or write of a listed address -/

section Port

variable {space : BitVec 2} {addr : Address} {r : Readable} (h : portTarget space addr = some r)
include h

theorem portRead_of_target (s : State) : portRead space addr s = .next (readValue r s) := by
  simp only [portRead, h]

theorem portWrite_of_target {data : Word} {s t : State} (hwrite : writeTarget r data s = .next t) :
    portWrite space addr data ⟨s, .load⟩ = .next ⟨t, .load⟩ := by
  simp only [portWrite, h, hwrite]

end Port

/-- After launch a write that the port answers changes nothing. -/
theorem portWrite_run {space : BitVec 2} {addr : Address} {data : Word} {s : State} {y : Session}
    (h : portWrite space addr data ⟨s, .run⟩ = .next y) : y = ⟨s, .run⟩ := by
  unfold portWrite at h
  cases htarget : portTarget space addr with
  | none => simp [htarget] at h
  | some r => simpa [htarget, eq_comm] using h

/-! ### The narrowed data of a write -/

theorem lowByte_eq_ofNat (w : Word) : lowByte w = BitVec.ofNat 8 w.toNat :=
  BitVec.eq_of_toNat_eq (by simp)

@[simp] theorem lowByte_setWidth (b : Byte) : lowByte (b.setWidth 16) = b :=
  BitVec.eq_of_toNat_eq (by simp; omega)

theorem low5_toNat (w : Word) : (w.extractLsb' 0 5).toNat = w.toNat % 32 := by simp

theorem writeTarget_sp_of_le {data : Word} (h : data.toNat % 32 ≤ 16) (s : State) :
    writeTarget .sp data s = .next (setSp (Fin.ofNat 17 (data.toNat % 32)) s) := by
  simp only [writeTarget, low5_toNat]
  rw [dif_pos (by omega), ofNat_eq_mk (show data.toNat % 32 < 17 by omega)]

theorem writeTarget_sp_of_gt {data : Word} (h : 16 < data.toNat % 32) (s : State) :
    writeTarget .sp data s = .next s := by
  simp only [writeTarget, low5_toNat]
  rw [dif_neg (by omega)]

/-- Settles O47: the write of each address by its target; after launch none is honoured. -/
theorem portWritesOfRegisters : Obligations.PortWritesOfRegisters := by
  refine ⟨fun s data addr => ⟨fun h => ?_, fun h => ?_, ?_, fun h => ?_, fun h => ?_, ?_⟩,
    fun s space addr data y => portWrite_run⟩
  · rw [← lowByte_eq_ofNat]
    exact portWrite_of_target (portTarget_v h) rfl
  · exact portWrite_of_target (portTarget_stack h) rfl
  · exact portWrite_of_target (r := .pc) rfl rfl
  · exact portWrite_of_target (r := .sp) rfl (writeTarget_sp_of_le h s)
  · exact portWrite_of_target (r := .sp) rfl (writeTarget_sp_of_gt h s)
  · rintro (rfl | rfl | rfl)
    · exact portWrite_of_target (r := .status) rfl rfl
    · exact portWrite_of_target (r := .faultKind) rfl rfl
    · exact portWrite_of_target (r := .faultInfo) rfl rfl

/-! ### Reads (R129) -/

section Codes

variable {s : State}

theorem portRead_status {st : Status} (h : s.status = st) :
    portRead 3 2 s = .next (st.code.setWidth 16) :=
  h ▸ portRead_of_target (r := .status) rfl s

theorem portRead_faultKind {k : FaultKind} (h : s.faultKind = k) :
    portRead 3 3 s = .next (k.code.setWidth 16) :=
  h ▸ portRead_of_target (r := .faultKind) rfl s

end Codes

/-- Settles O48: the read of each address by its target, with the code of each status and kind. -/
theorem portReadsTheState : Obligations.PortReadsTheState := by
  intro s
  simp only [BitVec.ofNat_toNat]
  refine ⟨fun a => portRead_of_target (portTarget_mem a) s, fun addr h =>
    ⟨portRead_of_target (portTarget_v h) s, portRead_of_target (portTarget_stack h) s⟩,
    portRead_of_target (r := .pc) rfl s, portRead_of_target (r := .sp) rfl s, ?_⟩
  exact ⟨portRead_status, portRead_status, portRead_status, portRead_faultKind, portRead_faultKind,
    portRead_faultKind, portRead_faultKind, portRead_faultKind,
    portRead_of_target (r := .faultInfo) rfl s⟩

/-! ### An image, byte by byte -/

/-- The memory after writing bytes from `start` upwards. -/
def Memory.writeBytes (start : Nat) (bytes : List Byte) (m : Memory) : Memory :=
  match bytes with
  | [] => m
  | b :: bs => Memory.writeBytes (start + 1) bs (Memory.writeByte m start b)

theorem Memory.wf_writeBytes {start : Nat} {bytes : List Byte} {m : Memory} (hm : wf m = true)
    (h : start + bytes.length ≤ 4096) : wf (writeBytes start bytes m) = true := by
  induction bytes generalizing start m with
  | nil => exact hm
  | cons b bs ih =>
    rw [List.length_cons] at h
    exact ih (wf_writeByte hm (by omega) b) (by omega)

/-- The bytes written, read back at their places; every other byte is left alone. -/
theorem Memory.readByte_writeBytes {start : Nat} {bytes : List Byte} {m : Memory} (hm : wf m = true)
    (h : start + bytes.length ≤ 4096) (a : Nat) :
    readByte (writeBytes start bytes m) a =
      if start ≤ a ∧ a < start + bytes.length then bytes.getD (a - start) 0 else readByte m a := by
  induction bytes generalizing start m with
  | nil => rw [if_neg (by simp)]; rfl
  | cons b bs ih =>
    rw [List.length_cons] at h ⊢
    rw [writeBytes, ih (wf_writeByte hm (by omega) b) (by omega), readByte_writeByte hm]
    rcases Nat.lt_trichotomy a start with ha | rfl | ha
    · rw [if_neg (by omega), if_neg (by omega), if_neg (by omega)]
    · rw [if_neg (by omega), if_pos rfl, if_pos (by omega), Nat.sub_self, List.getD_cons_zero]
    · have hrange : (start + 1 ≤ a ∧ a < start + 1 + bs.length) ↔
          (start ≤ a ∧ a < start + (bs.length + 1)) := by omega
      rw [show a - start = a - (start + 1) + 1 by omega, List.getD_cons_succ, if_neg ha.ne']
      simp only [hrange]

/-- Writing a whole image over an empty memory gives the image's memory. -/
theorem Memory.writeBytes_nil {bytes : List Byte} (h : bytes.length ≤ 4096) :
    writeBytes 0 bytes [] = ofBytes 0 bytes := by
  have hwf : wf [] = true := rfl
  refine Memory.ext (wf_writeBytes hwf (by omega)) (wf_ofBytes bytes h) fun a => ?_
  rw [readByte_writeBytes hwf (by omega), readByte_ofBytes bytes h]
  split
  · rfl
  · exact (List.getD_eq_default _ _ (by omega)).symm

theorem portWrite_mem {a : Nat} (h : a < 4096) (b : Byte) (s : State) :
    portWrite 0 (BitVec.ofNat 12 a) (b.setWidth 16) ⟨s, .load⟩ =
      .next ⟨s.withMem (Memory.writeByte s.mem a b), .load⟩ := by
  refine portWrite_of_target (portTarget_mem _) ?_
  have ha : (BitVec.ofNat 12 a).toNat = a := Nat.mod_eq_of_lt h
  rw [writeTarget, lowByte_setWidth, ha]
  exact if_pos h

theorem portLoadImage_eq {start : Nat} {bytes : List Byte} (s : State)
    (h : start + bytes.length ≤ 4096) :
    portLoadImage start bytes ⟨s, .load⟩ =
      .next ⟨s.withMem (Memory.writeBytes start bytes s.mem), .load⟩ := by
  induction bytes generalizing start s with
  | nil => rfl
  | cons b bs ih =>
    rw [List.length_cons] at h
    have hstart : start < 4096 := by omega
    simp only [portLoadImage, hstart, if_true, portWrite_mem hstart]
    exact ih _ (by omega)

/-- Settles O46: over an empty memory the writes build the image's canonical memory. -/
theorem portWritesLoadTheImage : Obligations.PortWritesLoadTheImage := by
  intro s bytes hempty hfits
  refine ⟨_, portLoadImage_eq s (by omega), ?_⟩
  rw [hempty, Memory.writeBytes_nil hfits]
  exact (transact_loadImage hfits).trans (loadOnly_load rfl _)

end Sys2Proof.Machine
end
